-- ==== Sys2Proof/Word.lean ====
section
/-! DEFINITION. The machine's widths (spec/00_scope.md R7, R10, R11). Every value is unsigned; bit 0 is the
least significant bit. -/

namespace Sys2Proof

/-- A byte: a general register, a timer, a memory cell (R7). -/
abbrev Byte := BitVec 8

/-- A 16-bit value: I, PC, a stack slot, an opcode (R7). -/
abbrev Word := BitVec 16

/-- A 4-bit field of an opcode taken as bits (R81). -/
abbrev Nibble := BitVec 4

/-- The 12-bit address field `nnn` (R81, R83). -/
abbrev Addr12 := BitVec 12

/-- A register index: 4-bit fields make it in range by construction (R20). -/
abbrev Reg := Fin 16

/-- A key index (R28). -/
abbrev Key := Fin 16

/-- The register that some instructions also write as a flag: V15 (R21). -/
abbrev VF : Reg := 15

/-- The register whose value offsets `JP V0, addr`, and the first of a register block (R20). -/
abbrev V0 : Reg := 0

end Sys2Proof
end

