-- ==== Sys2Proof/Config.lean ====
section
/-! DEFINITION. What an implementation fixes (the open parameters of spec/00_scope.md R8) and the one free
value: the byte the supplier of randomness hands to a step (R9). -/

namespace Sys2Proof.Config

/-- The open parameters of R8. "The model takes each as an argument": the machine's step has the state as its
one argument, so the parameters ride in it as one constant record that nothing writes (log 2). -/
structure Params where
  /-- `ADD_I_SETS_VF`: whether ADD I, Vx writes VF (R151, D15). -/
  addISetsVF : Bool
  /-- `ROM_PROTECT`: whether an instruction's write to 0x000..0x1FF faults (R58, D6). -/
  romProtect : Bool
  /-- `STRICT_DECODE`: whether the decoder also checks the bits the dispatch does not consult (R87, D3). -/
  strictDecode : Bool
  deriving DecidableEq, Repr

/-- The defaults of R8, used by the spec's own examples and vectors. -/
def default : Params :=
  { addISetsVF := false, romProtect := true, strictDecode := false }

/-- FREE VALUE (R9, D17, U6; log 1). The byte that `random_byte()` hands out at its k-th use. It has no body:
nothing can evaluate it, so a claim that mentions it holds for all 256 values. -/
opaque randByte : Nat → Byte

end Sys2Proof.Config
end

