-- ==== Sys2Proof/Syntax.lean ====
section
/-! DEFINITION. The 34 instructions of spec/30_encoding.md R90, one constructor for each row of
spec/opcode_table.json, in the table's order.

Operands are the fields of R81 that the row's format uses (R82). Four bits that an encoding carries and the
instruction does not consult (`x` of group 0, `n` of the two register skips, `y` of the shifts; R86, R144, R146)
are kept as a `Nibble`, so that an instruction determines its 16-bit opcode: a fault records it (R183). No
meaning reads them for anything else. -/

namespace Sys2Proof

inductive Instr where
  /-- Row 1, `CLS`, 00E0 (`x` not consulted): R160. -/
  | cls (x : Nibble)
  /-- Row 2, `RET`, 00EE (`x` not consulted): R110. -/
  | ret (x : Nibble)
  /-- Row 3, `JP addr`, 1nnn: R111. -/
  | jp (nnn : Addr12)
  /-- Row 4, `CALL addr`, 2nnn: R112. -/
  | call (nnn : Addr12)
  /-- Row 5, `SE Vx, byte`, 3xkk: R114. -/
  | seByte (x : Reg) (kk : Byte)
  /-- Row 6, `SNE Vx, byte`, 4xkk: R115. -/
  | sneByte (x : Reg) (kk : Byte)
  /-- Row 7, `SE Vx, Vy`, 5xy0 (`n` not consulted): R116. -/
  | seReg (x y : Reg) (n : Nibble)
  /-- Row 8, `LD Vx, byte`, 6xkk: R130. -/
  | ldByte (x : Reg) (kk : Byte)
  /-- Row 9, `ADD Vx, byte`, 7xkk: R141. -/
  | addByte (x : Reg) (kk : Byte)
  /-- Row 10, `LD Vx, Vy`, 8xy0: R131. -/
  | ldReg (x y : Reg)
  /-- Row 11, `OR Vx, Vy`, 8xy1: R132. -/
  | orReg (x y : Reg)
  /-- Row 12, `AND Vx, Vy`, 8xy2: R133. -/
  | andReg (x y : Reg)
  /-- Row 13, `XOR Vx, Vy`, 8xy3: R134. -/
  | xorReg (x y : Reg)
  /-- Row 14, `ADD Vx, Vy`, 8xy4: R142. -/
  | addReg (x y : Reg)
  /-- Row 15, `SUB Vx, Vy`, 8xy5: R143. -/
  | subReg (x y : Reg)
  /-- Row 16, `SHR Vx`, 8xy6 (`y` not read): R144. -/
  | shr (x : Reg) (y : Nibble)
  /-- Row 17, `SUBN Vx, Vy`, 8xy7: R145. -/
  | subnReg (x y : Reg)
  /-- Row 18, `SHL Vx`, 8xyE (`y` not read): R146. -/
  | shl (x : Reg) (y : Nibble)
  /-- Row 19, `SNE Vx, Vy`, 9xy0 (`n` not consulted): R117. -/
  | sneReg (x y : Reg) (n : Nibble)
  /-- Row 20, `LD I, addr`, Annn: R150. -/
  | ldI (nnn : Addr12)
  /-- Row 21, `JP V0, addr`, Bnnn: R113. -/
  | jpV0 (nnn : Addr12)
  /-- Row 22, `RND Vx, byte`, Cxkk: R176. -/
  | rnd (x : Reg) (kk : Byte)
  /-- Row 23, `DRW Vx, Vy, nibble`, Dxyn: R161. -/
  | drw (x y : Reg) (n : Nibble)
  /-- Row 24, `SKP Vx`, Ex9E: R170. -/
  | skp (x : Reg)
  /-- Row 25, `SKNP Vx`, ExA1: R171. -/
  | sknp (x : Reg)
  /-- Row 26, `LD Vx, DT`, Fx07: R173. -/
  | ldVxDT (x : Reg)
  /-- Row 27, `LD Vx, K`, Fx0A: R172. -/
  | ldVxK (x : Reg)
  /-- Row 28, `LD DT, Vx`, Fx15: R174. -/
  | ldDTVx (x : Reg)
  /-- Row 29, `LD ST, Vx`, Fx18: R175. -/
  | ldSTVx (x : Reg)
  /-- Row 30, `ADD I, Vx`, Fx1E: R151. -/
  | addI (x : Reg)
  /-- Row 31, `LD F, Vx`, Fx29: R152. -/
  | ldF (x : Reg)
  /-- Row 32, `LD B, Vx`, Fx33: R153. -/
  | ldB (x : Reg)
  /-- Row 33, `LD [I], Vx`, Fx55: R154. -/
  | storeRegs (x : Reg)
  /-- Row 34, `LD Vx, [I]`, Fx65: R155. -/
  | loadRegs (x : Reg)
  deriving DecidableEq, Repr

end Sys2Proof
end

