-- ==== Sys2Proof/Decode.lean ====
section
/-! DEFINITION. The decoder and the encoder of spec/30_encoding.md: the six fields (R81), the table of rows
(R90) as data, decoding as a search of that table (R88), the rejections by name (R94), and the encoding of an
instruction (R90, R82). The opcode numbers are the conventional ones (D1, G1; log 3). -/

namespace Sys2Proof

/-- The six overlapping fields of an opcode (R81). -/
structure Fields where
  op  : Nibble
  nnn : Addr12
  n   : Nibble
  x   : Nibble
  y   : Nibble
  kk  : Byte
  deriving DecidableEq, Repr

/-- The bit ranges of R81: op 15..12, nnn 11..0, n 3..0, x 11..8, y 7..4, kk 7..0. -/
def Fields.of (w : Word) : Fields where
  op  := w.extractLsb' 12 4
  nnn := w.extractLsb' 0 12
  n   := w.extractLsb' 0 4
  x   := w.extractLsb' 8 4
  y   := w.extractLsb' 4 4
  kk  := w.extractLsb' 0 8

/-- A 4-bit field as a register index (R20, R83). -/
def regOf (b : Nibble) : Reg := b.toFin

/-- A register index as the 4-bit field that names it. -/
def nibbleOf (r : Reg) : Nibble := BitVec.ofFin r

/-- The x operand of a row, as a register. -/
def Fields.rx (f : Fields) : Reg := regOf f.x

/-- The y operand of a row, as a register. -/
def Fields.ry (f : Fields) : Reg := regOf f.y

/-- One row of the table of R90: an opcode `w` selects it when `w AND mask = code`; `strictMask` takes the
place of `mask` when `STRICT_DECODE` is true; `build` assembles the operands (R83). -/
structure Row where
  canonical  : String
  code       : Word
  mask       : Word
  strictMask : Word
  build      : Fields → Instr

/-- A row whose strict mask does not differ from its mask (R90). -/
def Row.plain (canonical : String) (code mask : Word) (build : Fields → Instr) : Row :=
  { canonical, code, mask, strictMask := mask, build }

/-- Rows 1 to 9 of R90. -/
def rowsFlow : List Row :=
  [ ⟨"00E0", 0x00E0, 0xF0FF, 0xFFFF, fun f => .cls f.x⟩,
    ⟨"00EE", 0x00EE, 0xF0FF, 0xFFFF, fun f => .ret f.x⟩,
    .plain "1nnn" 0x1000 0xF000 fun f => .jp f.nnn,
    .plain "2nnn" 0x2000 0xF000 fun f => .call f.nnn,
    .plain "3xkk" 0x3000 0xF000 fun f => .seByte f.rx f.kk,
    .plain "4xkk" 0x4000 0xF000 fun f => .sneByte f.rx f.kk,
    ⟨"5xy0", 0x5000, 0xF000, 0xF00F, fun f => .seReg f.rx f.ry f.n⟩,
    .plain "6xkk" 0x6000 0xF000 fun f => .ldByte f.rx f.kk,
    .plain "7xkk" 0x7000 0xF000 fun f => .addByte f.rx f.kk ]

/-- Rows 10 to 18 of R90: group 8, selected on `n` (R85). -/
def rowsArith : List Row :=
  [ .plain "8xy0" 0x8000 0xF00F fun f => .ldReg f.rx f.ry,
    .plain "8xy1" 0x8001 0xF00F fun f => .orReg f.rx f.ry,
    .plain "8xy2" 0x8002 0xF00F fun f => .andReg f.rx f.ry,
    .plain "8xy3" 0x8003 0xF00F fun f => .xorReg f.rx f.ry,
    .plain "8xy4" 0x8004 0xF00F fun f => .addReg f.rx f.ry,
    .plain "8xy5" 0x8005 0xF00F fun f => .subReg f.rx f.ry,
    .plain "8xy6" 0x8006 0xF00F fun f => .shr f.rx f.y,
    .plain "8xy7" 0x8007 0xF00F fun f => .subnReg f.rx f.ry,
    .plain "8xyE" 0x800E 0xF00F fun f => .shl f.rx f.y ]

/-- Rows 19 to 23 of R90. -/
def rowsMiddle : List Row :=
  [ ⟨"9xy0", 0x9000, 0xF000, 0xF00F, fun f => .sneReg f.rx f.ry f.n⟩,
    .plain "Annn" 0xA000 0xF000 fun f => .ldI f.nnn,
    .plain "Bnnn" 0xB000 0xF000 fun f => .jpV0 f.nnn,
    .plain "Cxkk" 0xC000 0xF000 fun f => .rnd f.rx f.kk,
    .plain "Dxyn" 0xD000 0xF000 fun f => .drw f.rx f.ry f.n ]

/-- Rows 24 to 34 of R90: groups E and F, selected on `kk` (R85). -/
def rowsKeyTimerMemory : List Row :=
  [ .plain "Ex9E" 0xE09E 0xF0FF fun f => .skp f.rx,
    .plain "ExA1" 0xE0A1 0xF0FF fun f => .sknp f.rx,
    .plain "Fx07" 0xF007 0xF0FF fun f => .ldVxDT f.rx,
    .plain "Fx0A" 0xF00A 0xF0FF fun f => .ldVxK f.rx,
    .plain "Fx15" 0xF015 0xF0FF fun f => .ldDTVx f.rx,
    .plain "Fx18" 0xF018 0xF0FF fun f => .ldSTVx f.rx,
    .plain "Fx1E" 0xF01E 0xF0FF fun f => .addI f.rx,
    .plain "Fx29" 0xF029 0xF0FF fun f => .ldF f.rx,
    .plain "Fx33" 0xF033 0xF0FF fun f => .ldB f.rx,
    .plain "Fx55" 0xF055 0xF0FF fun f => .storeRegs f.rx,
    .plain "Fx65" 0xF065 0xF0FF fun f => .loadRegs f.rx ]

/-- The 34 rows of R90: the configuration table of opcode numbers that D1 asks for. -/
def opcodeTable : List Row := rowsFlow ++ rowsArith ++ rowsMiddle ++ rowsKeyTimerMemory

/-- The mask in force (R86, R87). -/
def Row.maskFor (row : Row) (strict : Bool) : Word := if strict then row.strictMask else row.mask

/-- "An opcode w selects the row when w AND mask = match" (R90). -/
def Row.selects (row : Row) (strict : Bool) (w : Word) : Bool := (w &&& row.maskFor strict) == row.code

/-- The instruction an opcode selects, or none: the opcode is illegal (R88, R94). -/
def decodeWord (strict : Bool) (w : Word) : Option Instr :=
  (opcodeTable.find? fun row => row.selects strict w).map fun row => row.build (Fields.of w)

/-- Why a byte string gives no instruction. -/
inductive DecodeReject where
  /-- Fewer than two bytes: an instruction is 16 bits (R80). Safe: a fetch always hands over two. -/
  | tooShort
  /-- The opcode matches no row; the step takes the fault `DecodeError` (R94). Safe: the spec's own fault. -/
  | illegalOpcode (w : Word)
  deriving DecidableEq, Repr

/-- An opcode from its two bytes, high byte at the lower address (R50, R80). -/
def opcodeOf (hi lo : Byte) : Word := hi ++ lo

/-- Decoding a byte string: one instruction and the rest of the bytes, or a rejection by name (R80, R88). -/
def decode (strict : Bool) : List Byte → Except DecodeReject (Instr × List Byte)
  | [] => .error .tooShort
  | [_] => .error .tooShort
  | hi :: lo :: rest =>
    match decodeWord strict (opcodeOf hi lo) with
    | some i => .ok (i, rest)
    | none => .error (.illegalOpcode (opcodeOf hi lo))

/-- An opcode from its four nibbles, top nibble first (R82). -/
def wordOfNibbles (op x y n : Nibble) : Word := op ++ x ++ y ++ n

/-- Format `NNN`: selector op, operand nnn (R82). -/
def encodeNNN (op : Nibble) (nnn : Addr12) : Word := op ++ nnn

/-- Format `XKK`: selector op, operands x and kk (R82). -/
def encodeXKK (op : Nibble) (x : Reg) (kk : Byte) : Word := op ++ nibbleOf x ++ kk

/-- Formats `XY` and `XYN`: op, x, y and n, where n is a selector, an operand or not consulted (R82). -/
def encodeXYN (op : Nibble) (x y : Reg) (n : Nibble) : Word := wordOfNibbles op (nibbleOf x) (nibbleOf y) n

/-- The opcode of an instruction, from the numbers of R90 and the layout of R82. -/
def encode : Instr → Word
  | .cls x         => wordOfNibbles 0x0 x 0xE 0x0
  | .ret x         => wordOfNibbles 0x0 x 0xE 0xE
  | .jp nnn        => encodeNNN 0x1 nnn
  | .call nnn      => encodeNNN 0x2 nnn
  | .seByte x kk   => encodeXKK 0x3 x kk
  | .sneByte x kk  => encodeXKK 0x4 x kk
  | .seReg x y n   => encodeXYN 0x5 x y n
  | .ldByte x kk   => encodeXKK 0x6 x kk
  | .addByte x kk  => encodeXKK 0x7 x kk
  | .ldReg x y     => encodeXYN 0x8 x y 0x0
  | .orReg x y     => encodeXYN 0x8 x y 0x1
  | .andReg x y    => encodeXYN 0x8 x y 0x2
  | .xorReg x y    => encodeXYN 0x8 x y 0x3
  | .addReg x y    => encodeXYN 0x8 x y 0x4
  | .subReg x y    => encodeXYN 0x8 x y 0x5
  | .shr x y       => wordOfNibbles 0x8 (nibbleOf x) y 0x6
  | .subnReg x y   => encodeXYN 0x8 x y 0x7
  | .shl x y       => wordOfNibbles 0x8 (nibbleOf x) y 0xE
  | .sneReg x y n  => encodeXYN 0x9 x y n
  | .ldI nnn       => encodeNNN 0xA nnn
  | .jpV0 nnn      => encodeNNN 0xB nnn
  | .rnd x kk      => encodeXKK 0xC x kk
  | .drw x y n     => encodeXYN 0xD x y n
  | .skp x         => encodeXKK 0xE x 0x9E
  | .sknp x        => encodeXKK 0xE x 0xA1
  | .ldVxDT x      => encodeXKK 0xF x 0x07
  | .ldVxK x       => encodeXKK 0xF x 0x0A
  | .ldDTVx x      => encodeXKK 0xF x 0x15
  | .ldSTVx x      => encodeXKK 0xF x 0x18
  | .addI x        => encodeXKK 0xF x 0x1E
  | .ldF x         => encodeXKK 0xF x 0x29
  | .ldB x         => encodeXKK 0xF x 0x33
  | .storeRegs x   => encodeXKK 0xF x 0x55
  | .loadRegs x    => encodeXKK 0xF x 0x65

/-- The high byte of an opcode, stored at the lower address (R50). -/
def highByte (w : Word) : Byte := w.extractLsb' 8 8

/-- The low byte of an opcode, stored at the higher address (R50). -/
def lowByte (w : Word) : Byte := w.extractLsb' 0 8

/-- The two bytes of an opcode in the order memory holds them (R50). -/
def bytesOf (w : Word) : List Byte := [highByte w, lowByte w]

/-- An opcode-table number of `nbits` bits as the 16-bit opcode it stands for; bits above `nbits` are zero. -/
def wordOfTable (nbits w : Nat) : Word := BitVec.ofNat 16 (w % 2 ^ nbits)

/-- The instruction the decoder reads from an opcode numbered as spec/opcode_table.json numbers it, at the
default parameters (R8). -/
def decodeTableWord (nbits w : Nat) : Option Instr :=
  match decode Config.default.strictDecode (bytesOf (wordOfTable nbits w)) with
  | .ok (i, _) => some i
  | .error _ => none

end Sys2Proof
end

