-- ==== Sys2Proof/Machine/State.lean ====
section
/-! DEFINITION. The architectural state (spec/10_state.md R20 to R31, R36, R38), the fault kinds (spec/60_exceptions.md
R181), the machine's refusals, and the state after Reset (R210). -/

namespace Sys2Proof.Machine

/-- The six fault kinds of R181. A fault of this hardware is TAKEN: the step that raises one goes on to the
state of R190 (HALT true, the record ERR written), so no step of the model answers `Outcome.fault`. Every kind
is safe: it is the spec's own. -/
inductive Fault where
  /-- Code 1. Raised by a step whose opcode matches no row of R90 (R94). Safe. -/
  | decodeError
  /-- Code 2. Raised by a fetch above 0xFFE, by a memory access above 4095 (R55 to R57) and by a key index or
  font digit above 15 (D13). Safe. -/
  | boundsError
  /-- Code 3. Raised by CALL with SP = 16 (R112). Safe. -/
  | stackOverflow
  /-- Code 4. Raised by RET with SP = 0 (R110). Safe. -/
  | stackUnderflow
  /-- Code 5. Raised by a step that starts with PC odd (R26, D5). Safe. -/
  | fetchMisaligned
  /-- Code 6. With `ROM_PROTECT`, raised by LD B, Vx and LD [I], Vx when a target address lies in 0x000..0x1FF
  (R58, D6). Safe. -/
  | reservedWrite
  deriving DecidableEq, Repr

/-- Why a step answers no next state. -/
inductive Refusal where
  /-- An instruction with no meaning yet, by its mnemonic; no arm of `exec` uses it now. Safe. -/
  | notModelled (mnemonic : String)
  /-- A Step while HALT is true: it "changes no state and executes nothing" and is refused (R192, D18). Raised
  by `step` alone. Safe. -/
  | halted
  deriving DecidableEq, Repr

/-- The fault record ERR (R30, R183). -/
structure ErrRecord where
  kind   : Fault
  pc     : Word
  opcode : Word
  deriving DecidableEq, Repr

/-- Memory as the list of the bytes that differ from the reset contents, addresses strictly rising
(Machine/Memory.lean). -/
abbrev Memory := List Host.Cell

/-- The display: 32 rows of 64 pixels, row 0 at the top, column 0 at the left (R31, R162). -/
abbrev Display := Vector (Vector Bool 64) 32

/-- Everything the spec gives the block (R20 to R31), the constant record of parameters (R8) and the model's
own counter of random bytes used. -/
structure State where
  /-- V0 to VF (R20). -/
  v     : Vector Byte 16
  /-- The address register I (R23). -/
  i     : Word
  /-- The program counter (R24). -/
  pc    : Word
  /-- The stack pointer: the next free slot, which is the depth, 0 to 16 (R29). -/
  sp    : Fin 17
  /-- The 16 return-address slots (R29). -/
  stack : Vector Word 16
  /-- The delay timer (R27). -/
  dt    : Byte
  /-- The sound timer (R27). -/
  st    : Byte
  /-- The key-down flags (R28). -/
  keys  : Vector Bool 16
  /-- The display buffer (R31, R162). -/
  disp  : Display
  /-- The 4096 bytes of memory (R31, R54). -/
  mem   : Memory
  /-- HALT (R30). -/
  halt  : Bool
  /-- ERR, meaningful only while `halt` is true (R30). -/
  err   : ErrRecord
  /-- The open parameters (R8): constant, written by nothing. -/
  cfg   : Config.Params
  /-- The MODEL'S OWN field, not the spec's: how many random bytes have been used (log 1). -/
  draws : Nat
  deriving DecidableEq, Repr

/-- What a meaning and a step answer. -/
abbrev Result := Host.Outcome State Fault Refusal

/-- The state after Reset at the default parameters (R36, R210). Memory lists nothing: an unlisted byte reads
as Reset leaves it, the font included. `err` and `draws` hold values the model chose (log 4, log 1). -/
def State.reset : State where
  v     := Vector.replicate 16 0
  i     := 0
  pc    := 0x200
  sp    := 0
  stack := Vector.replicate 16 0
  dt    := 0
  st    := 0
  keys  := Vector.replicate 16 false
  disp  := Vector.replicate 32 (Vector.replicate 64 false)
  mem   := []
  halt  := false
  err   := { kind := .decodeError, pc := 0, opcode := 0 }
  cfg   := Config.default
  draws := 0

end Sys2Proof.Machine
end

