-- ==== Sys2Proof/Machine/Flags.lean ====
section
/-! DEFINITION. Every flag computation of the machine (spec/10_state.md R22): the values VF receives. Each is
computed on the exact natural-number operation, before any truncation (spec/42_arith_shift.md R147). -/

namespace Sys2Proof.Machine

/-- A flag as the byte VF receives: 0 or 1, zero-extended to 8 bits (R22). -/
def flagByte (f : Bool) : Byte := if f then 1 else 0

/-- `ADD Vx, Vy`: the un-truncated sum exceeds 255 (R142). -/
def carries (a b : Byte) : Bool := decide (255 < a.toNat + b.toNat)

/-- `SUB` and `SUBN`, a - b: no borrow occurs, the equal case included (R143, R145). -/
def noBorrow (a b : Byte) : Bool := decide (b.toNat ≤ a.toNat)

/-- `SHR`: the bit shifted out, a[0] (R144). -/
def bitOutRight (a : Byte) : Bool := a.getLsbD 0

/-- `SHL`: the bit shifted out, a[7] (R146, conflict C5). -/
def bitOutLeft (a : Byte) : Bool := a.getLsbD 7

/-- `ADD I, Vx` when `ADD_I_SETS_VF`: the un-truncated sum exceeds 0x0FFF (R151, D15; log 7). -/
def addIOverflows (i : Word) (a : Byte) : Bool := decide (0x0FFF < i.toNat + a.toNat)

end Sys2Proof.Machine
end

