-- ==== Sys2Proof/Machine/Memory.lean ====
section
/-! DEFINITION. The 4096 bytes of memory as plain data (spec/20_memory.md R54, R61, R63): what Reset leaves in
them, reading and writing one byte, and the canonical form that makes equal memories equal lists. The bounds and
protection checks of R55 to R58 stand over these, in Machine/Ops.lean. -/

namespace Sys2Proof.Machine

/-- The font of R61, digit 0 first, row 0 of each sprite first. The bytes of digits 1 to F are the conventional
ones (D19, G4; log 5): the configuration table the spec asks for. -/
def fontTable : List (List Byte) :=
  [ [0xF0, 0x90, 0x90, 0x90, 0xF0],
    [0x20, 0x60, 0x20, 0x20, 0x70],
    [0xF0, 0x10, 0xF0, 0x80, 0xF0],
    [0xF0, 0x10, 0xF0, 0x10, 0xF0],
    [0x90, 0x90, 0xF0, 0x10, 0x10],
    [0xF0, 0x80, 0xF0, 0x10, 0xF0],
    [0xF0, 0x80, 0xF0, 0x90, 0xF0],
    [0xF0, 0x10, 0x20, 0x40, 0x40],
    [0xF0, 0x90, 0xF0, 0x90, 0xF0],
    [0xF0, 0x90, 0xF0, 0x10, 0xF0],
    [0xF0, 0x90, 0xF0, 0x90, 0x90],
    [0xE0, 0x90, 0xE0, 0x90, 0xE0],
    [0xF0, 0x80, 0x80, 0x80, 0xF0],
    [0xE0, 0x90, 0x90, 0x90, 0xE0],
    [0xF0, 0x80, 0xF0, 0x80, 0xF0],
    [0xF0, 0x80, 0xF0, 0x80, 0x80] ]

/-- The number of bytes of memory: addresses 0x000 to 0xFFF exist (R54). -/
def memSize : Nat := 4096

/-- The first address of the program region; those below it are reserved (R54). -/
def programBase : Nat := 0x200

/-- What an unlisted address reads as: the contents Reset leaves, digit d's sprite at 5*d and zero from 0x050 up
(R36, R54, R61). -/
def resetByte (a : Nat) : Byte := (fontTable.getD (a / 5) []).getD (a % 5) 0

namespace Memory

/-- The byte at an address (R63: the value last written to it, or what Reset left). -/
def read : Memory → Nat → Byte
  | [], a => resetByte a
  | (b, w) :: m, a => if a = b then w else read m a

/-- Storing a byte, keeping the canonical form: a byte that equals the reset contents is not listed. -/
def write : Memory → Nat → Byte → Memory
  | [], a, v => if v = resetByte a then [] else [(a, v)]
  | (b, w) :: m, a, v =>
    if a < b then (if v = resetByte a then (b, w) :: m else (a, v) :: (b, w) :: m)
    else if a = b then (if v = resetByte a then m else (a, v) :: m)
    else (b, w) :: write m a v

/-- Storing bytes at consecutive addresses, the first at `a`, in ascending order (R51). -/
def writeList : Memory → Nat → List Byte → Memory
  | m, _, [] => m
  | m, a, v :: vs => writeList (write m a v) (a + 1) vs

/-- The canonical form: addresses strictly rising, all of them existing, no entry equal to the reset contents. -/
abbrev wf (m : Memory) : Prop :=
  m.Pairwise (fun c d => c.1 < d.1) ∧ ∀ c ∈ m, c.1 < memSize ∧ c.2 ≠ resetByte c.1

end Memory

end Sys2Proof.Machine
end

