-- ==== Sys2Proof/Machine/Ops.lean ====
section
/-! DEFINITION. The named operations the meanings are written over: registers, PC, the return stack, memory with
its bounds and protection checks (spec/20_memory.md R55 to R58), taking a fault (spec/60_exceptions.md R190) and
fetching an opcode (spec/10_state.md R32). -/

namespace Sys2Proof.Machine

namespace State

/-- Reading a general register: none is hardwired, none aliases another (R20). -/
def reg (s : State) (r : Reg) : Byte := s.v.get r

/-- Writing a general register (R20). -/
def setReg (s : State) (r : Reg) (b : Byte) : State := { s with v := s.v.set r b }

/-- Writing several registers in the order listed (R155). -/
def setRegs (s : State) (rs : List (Reg × Byte)) : State :=
  rs.foldl (fun t p => t.setReg p.1 p.2) s

/-- Writing I (R23). -/
def setI (s : State) (w : Word) : State := { s with i := w }

/-- Writing PC: no target is checked (R118). -/
def jump (s : State) (w : Word) : State := { s with pc := w }

/-- The auto-advance: PC becomes PC + 2, modulo 65536 (R25). -/
def advance (s : State) : State := s.jump (s.pc + 2)

/-- A skip: PC + 4 when the condition holds, else PC + 2 (R25, R33). -/
def skipIf (s : State) (c : Bool) : State := s.jump (if c then s.pc + 4 else s.pc + 2)

/-- Writing VF as a flag (R22). -/
def setFlag (s : State) (f : Bool) : State := s.setReg VF (flagByte f)

/-- The two writes of a flag-producing instruction, in the order of R140: the flag to VF, then the result to
Vx; with x = 15 the result lands last (D11; log 8). -/
def setFlagThen (s : State) (f : Bool) (x : Reg) (r : Byte) : State := (s.setFlag f).setReg x r

/-- Writing DT (R27). -/
def setDT (s : State) (b : Byte) : State := { s with dt := b }

/-- Writing ST (R27). -/
def setST (s : State) (b : Byte) : State := { s with st := b }

/-- Writing the display buffer (R31). -/
def setDisp (s : State) (d : Display) : State := { s with disp := d }

/-- Writing all 16 key flags at once (R198). -/
def setKeys (s : State) (k : Vector Bool 16) : State := { s with keys := k }

/-- Writing the memory array. -/
def setMem (s : State) (m : Memory) : State := { s with mem := m }

/-- The random byte of this step (R9; log 1). -/
def randomByte (s : State) : Byte := Config.randByte s.draws

/-- The random byte is used up: the next use gets another one. -/
def drawn (s : State) : State := { s with draws := s.draws + 1 }

/-- Pushing a return address: "push writes at pointer then increments"; none when the stack is full (R29, R112). -/
def push (s : State) (w : Word) : Option State :=
  if h : s.sp.val < 16 then
    some { s with stack := s.stack.set s.sp.val w h, sp := ⟨s.sp.val + 1, Nat.succ_lt_succ h⟩ }
  else none

/-- Popping a return address: "pop decrements then reads"; the slot keeps its content (D23); none when the stack
is empty (R29, R110). -/
def pop (s : State) : Option (Word × State) :=
  if h : 0 < s.sp.val then
    some (s.stack[s.sp.val - 1]'(by have := s.sp.isLt; omega),
      { s with sp := ⟨s.sp.val - 1, by have := s.sp.isLt; omega⟩ })
  else none

/-- Taking a fault (R190, R183): HALT becomes true, ERR records the kind, the address of the instruction and its
opcode; nothing else changes, PC included. There is no vector and no return from a fault but Reset (R193). -/
def takeFault (s : State) (k : Fault) (opcode : Word) : State :=
  { s with halt := true, err := { kind := k, pc := s.pc, opcode := opcode } }

end State

/-- A rule that raises takes the fault, with the instruction's opcode in the record (R14, R190); one that does
not goes on to the state it computes. -/
def settle (s : State) (i : Instr) : Except Fault State → Result
  | .ok t => .next t
  | .error k => .next (s.takeFault k (encode i))

/-- The raise condition of `MemRead(addr, 1)`: the address does not exist (R55). -/
def readFault (a : Nat) : Option Fault := if memSize ≤ a then some .boundsError else none

/-- The raise conditions of `MemWrite(addr, 1, v)`: bounds, then the reserved region when `ROM_PROTECT`
(R57, R58; log 6). -/
def writeFault (cfg : Config.Params) (a : Nat) : Option Fault :=
  if memSize ≤ a then some .boundsError
  else if cfg.romProtect && decide (a < programBase) then some .reservedWrite
  else none

/-- The first fault among those of `n` consecutive addresses from `a`, in ascending order: every raise condition
of an instruction is evaluated over its whole range before it moves its first byte (R156, R191). -/
def rangeFault (f : Nat → Option Fault) (a n : Nat) : Option Fault :=
  (List.range n).findSome? fun k => f (a + k)

namespace State

/-- `MemRead(addr, 1)` (R55). -/
def memRead (s : State) (a : Nat) : Except Fault Byte :=
  match readFault a with
  | some k => .error k
  | none => .ok (s.mem.read a)

/-- `MemWrite(addr, 1, v)` (R57). -/
def memWrite (s : State) (a : Nat) (v : Byte) : Except Fault State :=
  match writeFault s.cfg a with
  | some k => .error k
  | none => .ok (s.setMem (s.mem.write a v))

/-- Reading `n` consecutive bytes, all bounds checked first; reading none raises nothing whatever the address is
(R56, D25). -/
def readBlock (s : State) (a n : Nat) : Except Fault (List Byte) :=
  match rangeFault readFault a n with
  | some k => .error k
  | none => .ok ((List.range n).map fun k => s.mem.read (a + k))

/-- Writing consecutive bytes in ascending order, all checked first (R57, R191). -/
def writeBlock (s : State) (a : Nat) (vs : List Byte) : Except Fault State :=
  match rangeFault (writeFault s.cfg) a vs.length with
  | some k => .error k
  | none => .ok (s.setMem (s.mem.writeList a vs))

/-- A fetch may read any even address 0x000 to 0xFFE (R60). -/
def fetchable (pc : Word) : Bool := !pc.getLsbD 0 && decide (pc.toNat ≤ 0xFFE)

/-- The opcode at PC, high byte first (R50). -/
def opcodeAtPC (s : State) : Word := opcodeOf (s.mem.read s.pc.toNat) (s.mem.read (s.pc.toNat + 1))

/-- Steps 2 to 4 of R32: an odd PC, then a PC above 0xFFE, then the two bytes at PC. Each fetch reads memory anew,
so it sees every earlier store (R66). -/
def fetch (s : State) : Except Fault Word :=
  if s.pc.getLsbD 0 then .error .fetchMisaligned
  else if 0xFFE < s.pc.toNat then .error .boundsError
  else .ok s.opcodeAtPC

/-- Where a program image comes to stand, and its first instruction (R7, R211). -/
def entryPC : Word := 0x200

/-- The state with an opcode stored where the next step fetches, running: PC stays where it is when a fetch may
read there, and is the entry point otherwise. -/
def placeOpcode (s : State) (w : Word) : State :=
  let pc := if fetchable s.pc then s.pc else entryPC
  { s with pc := pc, halt := false, mem := s.mem.writeList pc.toNat (bytesOf w) }

end State

end Sys2Proof.Machine
end

