-- ==== Sys2Proof/Machine/Operands.lean ====
section
/-! DEFINITION. Every operand form of the machine: immediates and addresses from the opcode (spec/30_encoding.md
R83), the one addressing mode I + offset (spec/43_index_memory.md R156), the register block V0..Vx, and the two
index operands with a declared range (key index, font digit; D13). Exact arithmetic is on natural numbers,
narrowed at the end (spec/00_scope.md R11). -/

namespace Sys2Proof.Machine

/-- `zext_16(nnn)`: the address field as written to PC or I (R83). -/
def zext16 (nnn : Addr12) : Word := nnn.setWidth 16

/-- The target of `JP V0, addr`: nnn + V0, not reduced to 12 bits (R113, D16; log 9). -/
def offsetTarget (nnn : Addr12) (v0 : Byte) : Word := BitVec.ofNat 16 (nnn.toNat + v0.toNat)

/-- The base of every data access: all 16 bits of I, as a natural number never truncated (R56, R156). -/
def State.base (s : State) : Nat := s.i.toNat

/-- An index operand whose declared range is 0 to 15: none above it (R170, R171, R152; D13; log 10). -/
def index16 (b : Byte) : Option (Fin 16) := if h : b.toNat < 16 then some ⟨b.toNat, h⟩ else none

/-- The sixteen indices in ascending order. -/
def sixteen : List (Fin 16) := [0, 1, 2, 3, 4, 5, 6, 7, 8, 9, 10, 11, 12, 13, 14, 15]

/-- The registers V0 to Vx, in ascending order (R83, R154, R155). -/
def regsUpTo (x : Reg) : List Reg := sixteen.filter fun r => decide (r ≤ x)

/-- The values of V0 to Vx, in ascending order (R154). -/
def State.regBlock (s : State) (x : Reg) : List Byte := (regsUpTo x).map s.reg

/-- The least key that is down, if one is (R172, D12; log 11). -/
def State.firstKey (s : State) : Option Key := sixteen.find? fun k => s.keys.get k

/-- Sum modulo 256 (R141, R142). -/
def addByte (a b : Byte) : Byte := BitVec.ofNat 8 (a.toNat + b.toNat)

/-- Difference modulo 256: a negative one wraps as two's complement (R143, R145, R147). -/
def subByte (a b : Byte) : Byte := BitVec.ofInt 8 (a.toNat - b.toNat : Int)

/-- One position to the right, zero entering at bit 7 (R144). -/
def shiftRight (a : Byte) : Byte := BitVec.ofNat 8 (a.toNat / 2)

/-- One position to the left, modulo 256 (R146). -/
def shiftLeft (a : Byte) : Byte := BitVec.ofNat 8 (a.toNat * 2)

/-- I + Vx modulo 65536: not reduced to 12 bits (R151, D16; log 9). -/
def addToI (i : Word) (a : Byte) : Word := BitVec.ofNat 16 (i.toNat + a.toNat)

/-- The address of digit d's sprite: 5*d (R152, R61). -/
def fontAddress (d : Fin 16) : Word := BitVec.ofNat 16 (5 * d.val)

/-- The decimal digits of a byte: hundreds, tens, ones (R153). -/
def bcdDigits (a : Byte) : List Byte :=
  [BitVec.ofNat 8 (a.toNat / 100), BitVec.ofNat 8 (a.toNat / 10 % 10), BitVec.ofNat 8 (a.toNat % 10)]

end Sys2Proof.Machine
end

