-- ==== Sys2Proof/Machine/LoadLogic.lean ====
section
/-! DEFINITION. Loads and bitwise operations (spec/41_load_logic.md R130 to R135): VF is written only when it is
the destination. -/

namespace Sys2Proof.Machine

/-- The shape of the family: one register written, then the auto-advance (R135). -/
def writeVx (x : Reg) (r : Byte) (s : State) : Result := .next (s.setReg x r).advance

/-- LD Vx, byte (R130). -/
def execLdByte (x : Reg) (kk : Byte) (s : State) : Result := writeVx x kk s

/-- LD Vx, Vy (R131). -/
def execLdReg (x y : Reg) (s : State) : Result := writeVx x (s.reg y) s

/-- OR Vx, Vy (R132). -/
def execOrReg (x y : Reg) (s : State) : Result := writeVx x (s.reg x ||| s.reg y) s

/-- AND Vx, Vy (R133). -/
def execAndReg (x y : Reg) (s : State) : Result := writeVx x (s.reg x &&& s.reg y) s

/-- XOR Vx, Vy (R134). -/
def execXorReg (x y : Reg) (s : State) : Result := writeVx x (s.reg x ^^^ s.reg y) s

end Sys2Proof.Machine
end

