-- ==== Sys2Proof/Machine/ArithShift.lean ====
section
/-! DEFINITION. Arithmetic and shifts (spec/42_arith_shift.md R140 to R147). -/

namespace Sys2Proof.Machine

/-- The shape of the five flag-producing instructions: both operands are read, then the flag is written to VF,
then the result to Vx, then the auto-advance (R140). -/
def writeFlagVx (f : Bool) (x : Reg) (r : Byte) (s : State) : Result := .next (s.setFlagThen f x r).advance

/-- ADD Vx, byte (R141): no flag. -/
def execAddByte (x : Reg) (kk : Byte) (s : State) : Result := writeVx x (addByte (s.reg x) kk) s

/-- ADD Vx, Vy (R142): VF is the carry of the un-truncated sum. -/
def execAddReg (x y : Reg) (s : State) : Result :=
  writeFlagVx (carries (s.reg x) (s.reg y)) x (addByte (s.reg x) (s.reg y)) s

/-- SUB Vx, Vy (R143): Vx - Vy, VF is NOT borrow. -/
def execSubReg (x y : Reg) (s : State) : Result :=
  writeFlagVx (noBorrow (s.reg x) (s.reg y)) x (subByte (s.reg x) (s.reg y)) s

/-- SHR Vx (R144): Vx in place; y is not read. -/
def execShr (x : Reg) (_y : Nibble) (s : State) : Result :=
  writeFlagVx (bitOutRight (s.reg x)) x (shiftRight (s.reg x)) s

/-- SUBN Vx, Vy (R145): Vy - Vx, VF is NOT borrow. -/
def execSubnReg (x y : Reg) (s : State) : Result :=
  writeFlagVx (noBorrow (s.reg y) (s.reg x)) x (subByte (s.reg y) (s.reg x)) s

/-- SHL Vx (R146): Vx in place; y is not read. -/
def execShl (x : Reg) (_y : Nibble) (s : State) : Result :=
  writeFlagVx (bitOutLeft (s.reg x)) x (shiftLeft (s.reg x)) s

end Sys2Proof.Machine
end

