-- ==== Sys2Proof/Machine/Display.lean ====
section
/-! DEFINITION. The display and its two instructions (spec/44_display.md R160 to R162). -/

namespace Sys2Proof.Machine

/-- The pixel at a row and a column (R162). -/
def pixel (d : Display) (r : Fin 32) (c : Fin 64) : Bool := (d.get r).get c

/-- Flipping one pixel. -/
def flipPixel (d : Display) (r : Fin 32) (c : Fin 64) : Display := d.set r ((d.get r).set c (!pixel d r c))

/-- Every cell false (R160). -/
def blankDisplay : Display := Vector.replicate 32 (Vector.replicate 64 false)

/-- The row of sprite row `row` drawn at the coordinate vy: a true modulo of the full sum (R162). -/
def rowAt (vy row : Nat) : Fin 32 := Fin.ofNat 32 (vy + row)

/-- The column of sprite column `col` drawn at the coordinate vx: a true modulo of the full sum (R162). -/
def colAt (vx col : Nat) : Fin 64 := Fin.ofNat 64 (vx + col)

/-- The display being drawn on, and whether any pixel has gone from set to unset. -/
structure Canvas where
  disp : Display
  hit  : Bool
  deriving DecidableEq, Repr

/-- XOR of one set sprite bit into a cell: a collision when the cell was set (R161). -/
def Canvas.plot (k : Canvas) (r : Fin 32) (c : Fin 64) : Canvas :=
  { disp := flipPixel k.disp r c, hit := k.hit || pixel k.disp r c }

/-- One sprite row: eight pixels, bit 7 leftmost; a zero bit leaves its cell alone (R161). -/
def Canvas.drawRow (vx : Nat) (r : Fin 32) (b : Byte) (k : Canvas) : Canvas :=
  (List.range 8).foldl (fun k col => if b.getLsbD (7 - col) then k.plot r (colAt vx col) else k) k

/-- The sprite rows in ascending order, starting at sprite row `row` (R161). -/
def Canvas.drawRows (vx vy : Nat) : Nat → List Byte → Canvas → Canvas
  | _, [], k => k
  | row, b :: bs, k => drawRows vx vy (row + 1) bs (k.drawRow vx (rowAt vy row) b)

/-- A whole sprite on a display, the collision flag starting at 0 (R161). -/
def drawSprite (vx vy : Nat) (rows : List Byte) (d : Display) : Canvas :=
  Canvas.drawRows vx vy 0 rows { disp := d, hit := false }

/-- CLS (R160): the display blank; VF is not written. -/
def execCls (_x : Nibble) (s : State) : Result := .next (s.setDisp blankDisplay).advance

/-- DRW Vx, Vy, nibble (R161): the coordinates and the sprite are read before anything is written (D11; log 8),
a sprite that does not fit memory faults and draws nothing, VF receives the collision flag. -/
def execDrw (x y : Reg) (n : Nibble) (s : State) : Result :=
  settle s (.drw x y n) <| (s.readBlock s.base n.toNat).map fun rows =>
    let k := drawSprite (s.reg x).toNat (s.reg y).toNat rows s.disp
    ((s.setDisp k.disp).setFlag k.hit).advance

end Sys2Proof.Machine
end

