-- ==== Sys2Proof/Machine/Flow.lean ====
section
/-! DEFINITION. Control flow (spec/40_flow.md R110 to R119): no delay slot, no target checked (R118). -/

namespace Sys2Proof.Machine

/-- RET (R110): pop, then the auto-advance of the same step (conflict C2); the stack empty is a fault, never a
wrap (conflict C1). -/
def execRet (x : Nibble) (s : State) : Result :=
  settle s (.ret x) <|
    match s.pop with
    | none => .error .stackUnderflow
    | some (w, t) => .ok (t.jump (w + 2))

/-- JP addr (R111). -/
def execJp (nnn : Addr12) (s : State) : Result := .next (s.jump (zext16 nnn))

/-- CALL addr (R112): the address pushed is that of the call itself; a full stack is a fault (conflict C1). -/
def execCall (nnn : Addr12) (s : State) : Result :=
  settle s (.call nnn) <|
    match s.push s.pc with
    | none => .error .stackOverflow
    | some t => .ok (t.jump (zext16 nnn))

/-- JP V0, addr (R113). -/
def execJpV0 (nnn : Addr12) (s : State) : Result := .next (s.jump (offsetTarget nnn (s.reg V0)))

/-- SE Vx, byte (R114). -/
def execSeByte (x : Reg) (kk : Byte) (s : State) : Result := .next (s.skipIf (s.reg x == kk))

/-- SNE Vx, byte (R115). -/
def execSneByte (x : Reg) (kk : Byte) (s : State) : Result := .next (s.skipIf (s.reg x != kk))

/-- SE Vx, Vy (R116). -/
def execSeReg (x y : Reg) (_n : Nibble) (s : State) : Result := .next (s.skipIf (s.reg x == s.reg y))

/-- SNE Vx, Vy (R117). -/
def execSneReg (x y : Reg) (_n : Nibble) (s : State) : Result := .next (s.skipIf (s.reg x != s.reg y))

end Sys2Proof.Machine
end

