-- ==== Sys2Proof/Machine/IndexMemory.lean ====
section
/-! DEFINITION. The address register and the memory instructions (spec/43_index_memory.md R150 to R156): I is
modified by none of the last three. -/

namespace Sys2Proof.Machine

/-- LD I, addr (R150). -/
def execLdI (nnn : Addr12) (s : State) : Result := .next (s.setI (zext16 nnn)).advance

/-- ADD I, Vx (R151): VF is written only when `ADD_I_SETS_VF`, from the un-truncated sum. -/
def execAddI (x : Reg) (s : State) : Result :=
  let t := if s.cfg.addISetsVF then s.setFlag (addIOverflows s.i (s.reg x)) else s
  .next (t.setI (addToI s.i (s.reg x))).advance

/-- LD F, Vx (R152): a digit above 15 is a fault; nothing is read from memory. -/
def execLdF (x : Reg) (s : State) : Result :=
  settle s (.ldF x) <|
    match index16 (s.reg x) with
    | none => .error .boundsError
    | some d => .ok (s.setI (fontAddress d)).advance

/-- LD B, Vx (R153). -/
def execLdB (x : Reg) (s : State) : Result :=
  settle s (.ldB x) <| (s.writeBlock s.base (bcdDigits (s.reg x))).map State.advance

/-- LD [I], Vx (R154): V0 to Vx at I, I+1, ... -/
def execStoreRegs (x : Reg) (s : State) : Result :=
  settle s (.storeRegs x) <| (s.writeBlock s.base (s.regBlock x)).map State.advance

/-- LD Vx, [I] (R155): V0 to Vx from I, I+1, ... -/
def execLoadRegs (x : Reg) (s : State) : Result :=
  settle s (.loadRegs x) <| (s.readBlock s.base (x.val + 1)).map fun bytes =>
    (s.setRegs ((regsUpTo x).zip bytes)).advance

end Sys2Proof.Machine
end

