-- ==== Sys2Proof/Machine/KeypadTimerRandom.lean ====
section
/-! DEFINITION. Keypad skips, wait for key, timer loads, random AND (spec/45_keypad_timer_random.md R170 to R177). Key
flags are levels, not events (R177). -/

namespace Sys2Proof.Machine

/-- SKP Vx (R170): the index is the whole register; above 15 is a fault. -/
def execSkp (x : Reg) (s : State) : Result :=
  settle s (.skp x) <|
    match index16 (s.reg x) with
    | none => .error .boundsError
    | some k => .ok (s.skipIf (s.keys.get k))

/-- SKNP Vx (R171). -/
def execSknp (x : Reg) (s : State) : Result :=
  settle s (.sknp x) <|
    match index16 (s.reg x) with
    | none => .error .boundsError
    | some k => .ok (s.skipIf (!s.keys.get k))

/-- LD Vx, DT (R173). -/
def execLdVxDT (x : Reg) (s : State) : Result := writeVx x s.dt s

/-- LD Vx, K (R172): with no key down nothing changes, PC included; else the least key down is stored and the same
step advances (conflict C10). -/
def execLdVxK (x : Reg) (s : State) : Result :=
  match s.firstKey with
  | none => .next s
  | some k => writeVx x (BitVec.ofNat 8 k.val) s

/-- LD DT, Vx (R174). -/
def execLdDTVx (x : Reg) (s : State) : Result := .next (s.setDT (s.reg x)).advance

/-- LD ST, Vx (R175). -/
def execLdSTVx (x : Reg) (s : State) : Result := .next (s.setST (s.reg x)).advance

/-- RND Vx, byte with a given random byte (R176). -/
def rndWith (rand : Byte) (x : Reg) (kk : Byte) (s : State) : Result := writeVx x (rand &&& kk) s

/-- RND Vx, byte (R176): the random byte is the step's free input (R9; log 1). -/
def execRnd (x : Reg) (kk : Byte) (s : State) : Result := rndWith s.randomByte x kk s.drawn

end Sys2Proof.Machine
end

