-- ==== Sys2Proof/Machine/Step.lean ====
section
/-! DEFINITION. One step of the block (spec/10_state.md R32) and placing an opcode where it fetches. -/

namespace Sys2Proof.Machine

/-- R32. A halted block refuses the step (R192); a fetch fault records opcode 0x0000 (R183); an opcode that selects no
instruction is a DecodeError; otherwise the instruction's rule is executed. -/
def step (s : State) : Host.Outcome State Fault Refusal :=
  if s.halt then .refused .halted
  else
    match s.fetch with
    | .error k => .next (s.takeFault k 0)
    | .ok w =>
      match decodeWord s.cfg.strictDecode w with
      | none => .next (s.takeFault .decodeError w)
      | some i => exec i s

/-- The state with an opcode of spec/opcode_table.json's numbering stored at PC, high byte first (R50), so that the
next step fetches and runs it. Of a state in which no fetch could happen it also clears HALT and takes PC to the
entry point (log 12). -/
def State.withFetchWord (s : State) (nbits w : Nat) : State := s.placeOpcode (wordOfTable nbits w)

end Sys2Proof.Machine
end

