-- ==== Sys2Proof/Machine/HostInterface.lean ====
section
/-! DEFINITION. The host transactions (spec/60_exceptions.md R196 to R201, spec/70_reset_and_hazards.md R210 to R214), the
engine conditions (spec/10_state.md R34) and the redraw hint (spec/44_display.md R163). Transactions and steps are whole
and totally ordered (spec/20_memory.md R65), so a history is a list of transactions. -/

namespace Sys2Proof.Machine

/-- The instruction a step would execute: none when the block is halted, the fetch faults, or the opcode is
illegal (R32). -/
def State.current (s : State) : Option Instr :=
  if s.halt then none
  else
    match s.fetch with
    | .error _ => none
    | .ok w => decodeWord s.cfg.strictDecode w

/-- The three conditions of the block (R34). -/
inductive Condition where
  | halted
  | waiting
  | running
  deriving DecidableEq, Repr

/-- Whether an instruction is wait-for-key (R34, R172). -/
def isWaitKey : Instr → Bool
  | .ldVxK _ => true
  | .cls _ | .ret _ | .jp _ | .call _ | .seByte _ _ | .sneByte _ _ | .seReg _ _ _ | .ldByte _ _ | .addByte _ _
  | .ldReg _ _ | .orReg _ _ | .andReg _ _ | .xorReg _ _ | .addReg _ _ | .subReg _ _ | .shr _ _ | .subnReg _ _
  | .shl _ _ | .sneReg _ _ _ | .ldI _ | .jpV0 _ | .rnd _ _ | .drw _ _ _ | .skp _ | .sknp _ | .ldVxDT _
  | .ldDTVx _ | .ldSTVx _ | .addI _ | .ldF _ | .ldB _ | .storeRegs _ | .loadRegs _ => false

/-- Whether an instruction touches the display: clear display and draw (R163). -/
def touchesDisplay : Instr → Bool
  | .cls _ | .drw _ _ _ => true
  | .ret _ | .jp _ | .call _ | .seByte _ _ | .sneByte _ _ | .seReg _ _ _ | .ldByte _ _ | .addByte _ _
  | .ldReg _ _ | .orReg _ _ | .andReg _ _ | .xorReg _ _ | .addReg _ _ | .subReg _ _ | .shr _ _ | .subnReg _ _
  | .shl _ _ | .sneReg _ _ _ | .ldI _ | .jpV0 _ | .rnd _ _ | .skp _ | .sknp _ | .ldVxDT _ | .ldVxK _
  | .ldDTVx _ | .ldSTVx _ | .addI _ | .ldF _ | .ldB _ | .storeRegs _ | .loadRegs _ => false

/-- Halted while HALT is true; Waiting while the instruction at PC is wait-for-key and no key is down; Running
otherwise (R34, R206). -/
def State.condition (s : State) : Condition :=
  if s.halt then .halted
  else if (s.current.any isWaitKey) && s.firstKey.isNone then .waiting
  else .running

/-- The redraw hint of a step from `s` that led to `t`: it executed clear display or draw without faulting (R163,
D26). -/
def redrawHint (s t : State) : Bool := (s.current.any touchesDisplay) && !t.halt

/-- Reset (R210): every piece of state at its reset value. The parameters are fixed for the machine, and the
supplier of random bytes is outside it (R9), so `cfg` and `draws` stay (log 1, log 2). -/
def State.afterReset (s : State) : State := { State.reset with cfg := s.cfg, draws := s.draws }

/-- The largest program image: 4096 - 512 bytes (R7). -/
def maxImage : Nat := 3584

/-- An image that LoadProgram accepts: not empty, not oversized (R212, R213). -/
def imageFits (image : List Byte) : Bool := decide (1 ≤ image.length) && decide (image.length ≤ maxImage)

/-- LoadProgram's effect: the image from 0x200 up, nothing else (R212). -/
def State.loadImage (s : State) (image : List Byte) : State := s.setMem (s.mem.writeList programBase image)

/-- One tick of one timer: one less, floored at 0 (R199). -/
def tickByte (b : Byte) : Byte := if b = 0 then 0 else b - 1

/-- TimerTick (R199): the two timers are independent. -/
def State.timerTick (s : State) : State := (s.setDT (tickByte s.dt)).setST (tickByte s.st)

/-- The transactions of R196. Step's input `rand` is the free byte of the model (log 1). -/
inductive Transaction where
  | reset
  | loadProgram (image : List Byte)
  | step
  | setKeys (keys : Vector Bool 16)
  | timerTick
  | readDisplay
  | readStatus
  deriving DecidableEq, Repr

/-- What a transaction returns to the host (R196 to R201, R213). -/
inductive Reply where
  /-- Done, nothing to return. -/
  | done
  /-- LoadProgram rejected the image (R213). -/
  | loadError
  /-- The transaction has no meaning here and changed nothing (R192, R214). -/
  | refused
  /-- The step completed, with the redraw hint (R197, R163). -/
  | completed (redraw : Bool)
  /-- The step faulted, with the fault record (R197, R183). -/
  | faulted (err : ErrRecord)
  /-- The display (R200). -/
  | display (disp : Display)
  /-- HALT, and ERR when HALT is true (R201). -/
  | status (halt : Bool) (err : Option ErrRecord)
  deriving DecidableEq, Repr

/-- The block as the host holds it: the state, and whether LoadProgram is still allowed, which is "after Reset,
before the first Step" (R196, R214). The second is the host protocol's phase, not state of the block. -/
structure Session where
  machine : State
  mayLoad : Bool
  deriving DecidableEq, Repr

/-- One transaction (R196). -/
def Session.apply (p : Session) : Transaction → Session × Reply
  | .reset => ({ machine := p.machine.afterReset, mayLoad := true }, .done)
  | .loadProgram image =>
    if !p.mayLoad then (p, .refused)
    else if imageFits image then ({ p with machine := p.machine.loadImage image }, .done)
    else (p, .loadError)
  | .step =>
    match Sys2Proof.Machine.step p.machine with
    | .next t =>
      ({ machine := t, mayLoad := false },
        if t.halt then .faulted t.err else .completed (redrawHint p.machine t))
    | .fault _ => (p, .refused)
    | .refused _ => (p, .refused)
  | .setKeys keys => ({ p with machine := p.machine.setKeys keys }, .done)
  | .timerTick => ({ p with machine := p.machine.timerTick }, .done)
  | .readDisplay => (p, .display p.machine.disp)
  | .readStatus => (p, .status p.machine.halt (if p.machine.halt then some p.machine.err else none))

/-- A history of transactions, in order (R65). -/
def Session.run (p : Session) : List Transaction → Session
  | [] => p
  | t :: ts => ((p.apply t).1).run ts

/-- The block constructed with given parameters: right after its first Reset (R211). -/
def Session.boot (cfg : Config.Params) : Session :=
  { machine := { State.reset with cfg := cfg }, mayLoad := true }

end Sys2Proof.Machine
end

