-- ==== Sys2Proof/WellFormed.lean ====
section
/-! DEFINITION. Which instruction terms an assembler for the machine may emit, under the parameter
`STRICT_DECODE` (spec/30_encoding.md R86, R87). Register indices, bytes and addresses are in range by their
types (R20, R83), so the only check left is the one R87 adds. -/

namespace Sys2Proof

/-- With `STRICT_DECODE` the four bits the dispatch does not consult must be zero in group 0 (`x`) and in the
two register skips (`n`); without it every term is well formed (R86, R87). The `y` of the shifts is never
checked: R87 names only the two group-0 instructions and the two register skips. -/
def WellFormed (strict : Bool) : Instr → Bool
  | .cls x => !strict || x == 0
  | .ret x => !strict || x == 0
  | .jp _ => true
  | .call _ => true
  | .seByte _ _ => true
  | .sneByte _ _ => true
  | .seReg _ _ n => !strict || n == 0
  | .ldByte _ _ => true
  | .addByte _ _ => true
  | .ldReg _ _ => true
  | .orReg _ _ => true
  | .andReg _ _ => true
  | .xorReg _ _ => true
  | .addReg _ _ => true
  | .subReg _ _ => true
  | .shr _ _ => true
  | .subnReg _ _ => true
  | .shl _ _ => true
  | .sneReg _ _ n => !strict || n == 0
  | .ldI _ => true
  | .jpV0 _ => true
  | .rnd _ _ => true
  | .drw _ _ _ => true
  | .skp _ => true
  | .sknp _ => true
  | .ldVxDT _ => true
  | .ldVxK _ => true
  | .ldDTVx _ => true
  | .ldSTVx _ => true
  | .addI _ => true
  | .ldF _ => true
  | .ldB _ => true
  | .storeRegs _ => true
  | .loadRegs _ => true

end Sys2Proof
end

