-- ==== Sys2Proof/Safety.lean ====
section
/-! DEFINITION. The terms claims are stated in: the parts of the state and what a step may leave untouched, the
invariant of every history, and the spec's own summary tables and procedures written out beside the model (the fault
table R182, the PC table R33, the access table R35, the dispatch procedure R91), so that a claim can hold the model
against them. No meaning and no step uses anything of this file. -/

namespace Sys2Proof.Machine

/-- A single observable piece of the state (spec/10_state.md R20 to R31), with the model's own `cfg` and `draws`. -/
inductive Part where
  | reg (r : Reg)
  | i
  | pc
  | sp
  | slot (k : Fin 16)
  | dt
  | st
  | key (k : Key)
  | pixel (r : Fin 32) (c : Fin 64)
  | byte (a : Nat)
  | halt
  | err
  | cfg
  | draws
  deriving DecidableEq, Repr

/-- Two states agree on a part; memory is compared through the model's read of one byte. -/
def Part.same (s t : State) : Part → Prop
  | .reg r => t.reg r = s.reg r
  | .i => t.i = s.i
  | .pc => t.pc = s.pc
  | .sp => t.sp = s.sp
  | .slot k => t.stack.get k = s.stack.get k
  | .dt => t.dt = s.dt
  | .st => t.st = s.st
  | .key k => t.keys.get k = s.keys.get k
  | .pixel r c => Sys2Proof.Machine.pixel t.disp r c = Sys2Proof.Machine.pixel s.disp r c
  | .byte a => t.mem.read a = s.mem.read a
  | .halt => t.halt = s.halt
  | .err => t.err = s.err
  | .cfg => t.cfg = s.cfg
  | .draws => t.draws = s.draws

/-- The frame: every part outside `W` is the same in `t` as in `s`. -/
def Keeps (W : Part → Prop) (s t : State) : Prop := ∀ p, ¬ W p → p.same s t

/-- The parts of a list. -/
def Among (ps : List Part) : Part → Prop := fun p => p ∈ ps

/-- The bytes of memory at `n` consecutive addresses from `a`. -/
def InBlock (a n : Nat) : Part → Prop := fun p => ∃ k, k < n ∧ p = .byte (a + k)

/-- The pixels of the display. -/
def IsPixel : Part → Prop := fun p => ∃ r c, p = .pixel r c

/-- The key flags. -/
def IsKey : Part → Prop := fun p => ∃ k, p = .key k

/-- The stack slot with a given number. -/
def SlotAt (n : Nat) : Part → Prop := fun p => ∃ k : Fin 16, k.val = n ∧ p = .slot k

/-- The registers V0 to Vx. -/
def RegUpTo (x : Reg) : Part → Prop := fun p => ∃ r, r ≤ x ∧ p = .reg r

/-- The fault table of R182: the instruction's own fault condition, and no other instruction can fault. -/
def ownFault (i : Instr) (s : State) : Option Fault :=
  match i with
  | .ret _ => if s.sp.val = 0 then some .stackUnderflow else none
  | .call _ => if s.sp.val = 16 then some .stackOverflow else none
  | .drw _ _ n => if 0 < n.toNat ∧ 4095 < s.i.toNat + n.toNat - 1 then some .boundsError else none
  | .skp x | .sknp x | .ldF x => if 15 < (s.reg x).toNat then some .boundsError else none
  | .ldB _ =>
    if 4095 < s.i.toNat + 2 then some .boundsError
    else if s.cfg.romProtect = true ∧ s.i.toNat ≤ 0x1FF then some .reservedWrite else none
  | .storeRegs x =>
    if 4095 < s.i.toNat + x.val then some .boundsError
    else if s.cfg.romProtect = true ∧ s.i.toNat ≤ 0x1FF then some .reservedWrite else none
  | .loadRegs x => if 4095 < s.i.toNat + x.val then some .boundsError else none
  | .cls _ | .jp _ | .seByte _ _ | .sneByte _ _ | .seReg _ _ _ | .ldByte _ _ | .addByte _ _ | .ldReg _ _ | .orReg _ _
  | .andReg _ _ | .xorReg _ _ | .addReg _ _ | .subReg _ _ | .shr _ _ | .subnReg _ _ | .shl _ _ | .sneReg _ _ _
  | .ldI _ | .jpV0 _ | .rnd _ _ | .ldVxDT _ | .ldVxK _ | .ldDTVx _ | .ldSTVx _ | .addI _ => none

/-- The fault of the step a running block would take, with the opcode its record holds: the order of R185 (an odd PC,
a PC above 0xFFE, an illegal opcode, the instruction's own condition), and opcode 0x0000 for the two fetch faults
(R183). -/
def faultOf (s : State) : Option (Fault × Word) :=
  if s.pc.toNat % 2 = 1 then some (.fetchMisaligned, 0)
  else if 0x0FFE < s.pc.toNat then some (.boundsError, 0)
  else
    match decodeWord s.cfg.strictDecode s.opcodeAtPC with
    | none => some (.decodeError, s.opcodeAtPC)
    | some i => (ownFault i s).map fun k => (k, s.opcodeAtPC)

/-- PC after a taken or untaken skip at p, modulo 65536 (R33). -/
def skipTarget (p : Word) (taken : Prop) [Decidable taken] : Nat :=
  if taken then (p.toNat + 4) % 65536 else (p.toNat + 2) % 65536

/-- The PC table of R33, as a number: PC after an instruction that does not fault. -/
def nextPC (i : Instr) (s : State) : Nat :=
  match i with
  | .jp nnn | .call nnn => nnn.toNat
  | .jpV0 nnn => nnn.toNat + (s.reg 0).toNat
  | .ret _ => ((s.stack.toList.getD (s.sp.val - 1) 0).toNat + 2) % 65536
  | .seByte x kk => skipTarget s.pc (s.reg x = kk)
  | .sneByte x kk => skipTarget s.pc (s.reg x ≠ kk)
  | .seReg x y _ => skipTarget s.pc (s.reg x = s.reg y)
  | .sneReg x y _ => skipTarget s.pc (s.reg x ≠ s.reg y)
  | .skp x => skipTarget s.pc (s.keys.toList.getD (s.reg x).toNat false = true)
  | .sknp x => skipTarget s.pc (s.keys.toList.getD (s.reg x).toNat false = false)
  | .ldVxK _ => if ∃ k : Key, s.keys.get k = true then (s.pc.toNat + 2) % 65536 else s.pc.toNat
  | .cls _ | .ldByte _ _ | .addByte _ _ | .ldReg _ _ | .orReg _ _ | .andReg _ _ | .xorReg _ _ | .addReg _ _
  | .subReg _ _ | .shr _ _ | .subnReg _ _ | .shl _ _ | .ldI _ | .rnd _ _ | .drw _ _ _ | .ldVxDT _ | .ldDTVx _
  | .ldSTVx _ | .addI _ | .ldF _ | .ldB _ | .storeRegs _ | .loadRegs _ => (s.pc.toNat + 2) % 65536

/-- The w entries of the access table R35, with PC: the parts an instruction that does not fault may change. Memory,
stack and registers are narrowed to the bytes, the slot and the registers that the instruction's rule names. -/
def writes (i : Instr) (s : State) (p : Part) : Prop :=
  p = .pc ∨
  match i with
  | .cls _ => IsPixel p
  | .ret _ => p = .sp
  | .call _ => p = .sp ∨ SlotAt s.sp.val p
  | .jp _ | .jpV0 _ | .seByte _ _ | .sneByte _ _ | .seReg _ _ _ | .sneReg _ _ _ | .skp _ | .sknp _ => False
  | .ldByte x _ | .addByte x _ | .ldReg x _ | .orReg x _ | .andReg x _ | .xorReg x _ | .ldVxDT x => p = .reg x
  | .addReg x _ | .subReg x _ | .shr x _ | .subnReg x _ | .shl x _ => p = .reg x ∨ p = .reg VF
  | .ldI _ | .ldF _ => p = .i
  | .rnd x _ => p = .reg x ∨ p = .draws
  | .drw _ _ _ => p = .reg VF ∨ IsPixel p
  | .ldVxK x => p = .reg x ∧ ∃ k : Key, s.keys.get k = true
  | .ldDTVx _ => p = .dt
  | .ldSTVx _ => p = .st
  | .addI _ => p = .i ∨ (p = .reg VF ∧ s.cfg.addISetsVF = true)
  | .ldB _ => InBlock s.i.toNat 3 p
  | .storeRegs x => InBlock s.i.toNat (x.val + 1) p
  | .loadRegs x => RegUpTo x p

/-- The r entries of the access table R35, with PC and the parameters: the parts on which the outcome of an
instruction may depend. For RND, for which R35 lists none, the model's own counter of random bytes stands here (log 1). -/
def reads (i : Instr) (s : State) (p : Part) : Prop :=
  p = .pc ∨ p = .cfg ∨
  match i with
  | .cls _ | .jp _ | .ldByte _ _ | .ldI _ => False
  | .ret _ => p = .sp ∨ ∃ n, s.sp.val = n + 1 ∧ SlotAt n p
  | .call _ => p = .sp
  | .jpV0 _ => p = .reg V0
  | .seByte x _ | .sneByte x _ | .addByte x _ | .shr x _ | .shl x _ | .ldDTVx x | .ldSTVx x | .ldF x => p = .reg x
  | .seReg x y _ | .sneReg x y _ | .orReg x y | .andReg x y | .xorReg x y | .addReg x y | .subReg x y
  | .subnReg x y => p = .reg x ∨ p = .reg y
  | .ldReg _ y => p = .reg y
  | .rnd _ _ => p = .draws
  | .drw x y n => p = .reg x ∨ p = .reg y ∨ p = .i ∨ IsPixel p ∨ InBlock s.i.toNat n.toNat p
  | .skp x | .sknp x => p = .reg x ∨ IsKey p
  | .ldVxDT _ => p = .dt
  | .ldVxK _ => IsKey p
  | .addI x | .ldB x => p = .i ∨ p = .reg x
  | .storeRegs x => p = .i ∨ RegUpTo x p
  | .loadRegs x => p = .i ∨ InBlock s.i.toNat (x.val + 1) p

/-- The dispatch procedure of R91, for `STRICT_DECODE` = false: first on the top nibble (R84), then on `kk` or `n` in
the four shared groups (R85). -/
def select (w : Word) : Option Instr :=
  let f := Fields.of w
  match f.op.toNat with
  | 0x0 => if f.kk = 0xE0 then some (.cls f.x) else if f.kk = 0xEE then some (.ret f.x) else none
  | 0x1 => some (.jp f.nnn)
  | 0x2 => some (.call f.nnn)
  | 0x3 => some (.seByte f.rx f.kk)
  | 0x4 => some (.sneByte f.rx f.kk)
  | 0x5 => some (.seReg f.rx f.ry f.n)
  | 0x6 => some (.ldByte f.rx f.kk)
  | 0x7 => some (.addByte f.rx f.kk)
  | 0x8 =>
    match f.n.toNat with
    | 0x0 => some (.ldReg f.rx f.ry)
    | 0x1 => some (.orReg f.rx f.ry)
    | 0x2 => some (.andReg f.rx f.ry)
    | 0x3 => some (.xorReg f.rx f.ry)
    | 0x4 => some (.addReg f.rx f.ry)
    | 0x5 => some (.subReg f.rx f.ry)
    | 0x6 => some (.shr f.rx f.y)
    | 0x7 => some (.subnReg f.rx f.ry)
    | 0xE => some (.shl f.rx f.y)
    | _ => none
  | 0x9 => some (.sneReg f.rx f.ry f.n)
  | 0xA => some (.ldI f.nnn)
  | 0xB => some (.jpV0 f.nnn)
  | 0xC => some (.rnd f.rx f.kk)
  | 0xD => some (.drw f.rx f.ry f.n)
  | 0xE => if f.kk = 0x9E then some (.skp f.rx) else if f.kk = 0xA1 then some (.sknp f.rx) else none
  | _ =>
    if f.kk = 0x07 then some (.ldVxDT f.rx)
    else if f.kk = 0x0A then some (.ldVxK f.rx)
    else if f.kk = 0x15 then some (.ldDTVx f.rx)
    else if f.kk = 0x18 then some (.ldSTVx f.rx)
    else if f.kk = 0x1E then some (.addI f.rx)
    else if f.kk = 0x29 then some (.ldF f.rx)
    else if f.kk = 0x33 then some (.ldB f.rx)
    else if f.kk = 0x55 then some (.storeRegs f.rx)
    else if f.kk = 0x65 then some (.loadRegs f.rx)
    else none

/-- Some set bit of the sprite that a draw reads at I falls on the cell (r, c) (R161, R162). -/
def SpriteCovers (s : State) (x y : Reg) (n : Nibble) (r : Fin 32) (c : Fin 64) : Prop :=
  ∃ row, row < n.toNat ∧ ∃ col, col < 8 ∧
    ((s.reg y).toNat + row) % 32 = r.val ∧ ((s.reg x).toNat + col) % 64 = c.val ∧
    (s.mem.read (s.i.toNat + row)).getLsbD (7 - col) = true

/-- The invariant of every history of transactions (R37, with the corner cases of R25 and R110): memory keeps its
canonical form over the 4096 existing addresses; with `ROM_PROTECT` the reserved region reads as Reset left it; PC is at
most 0x10FE; every return address on the stack is one a call can push, even and at most 0xFFE; and while HALT is true
the fault record names the PC the block stopped at (R183, R190). -/
structure Inv (s : State) : Prop where
  memWf : s.mem.wf
  romKept : s.cfg.romProtect = true → ∀ a, a < programBase → s.mem.read a = resetByte a
  pcBound : s.pc.toNat ≤ 0x10FE
  returnAddresses : ∀ k : Fin 16, k.val < s.sp.val →
    (s.stack.get k).toNat ≤ 0xFFE ∧ (s.stack.get k).toNat % 2 = 0
  errAtPC : s.halt = true → s.err.pc = s.pc

/-- A safe step: the block completes it, without a fault and without a refusal (R197). -/
def CompletesStep (s : State) : Prop := ∃ t, step s = .next t ∧ t.halt = false

/-- The end of a run, which the spec leaves to the model (R224, D27; log 13): the instruction at PC is a jump to PC.
The block itself goes on stepping. -/
def AtEndOfRun (s : State) : Prop := ∃ nnn, s.current = some (.jp nnn) ∧ zext16 nnn = s.pc

end Sys2Proof.Machine
end

