-- ==== Sys2Proof/Certificates/Slice0/Obligations.lean ====
section
/-! DEFINITION. The statements for the provers. Each docstring names the rules it formalises. "D<n>" is the spec's own
decision (spec/92_eei_decisions.md); "log <n>" is a row of notes/assumptions. An instruction's memory is compared through
the model's read of one byte; `Keeps W s t` says that every part of the state outside W is the same in t as in s. -/

open Sys2Proof Sys2Proof.Machine

/-! ### Encoding -/

/-- Words written out from R90 and R82 (S12's three words among them) decode to the instructions they stand for, and four
words outside the table to none. The numbers are the conventional ones (D1, log 3). -/
def Obligations.ManualWordsDecode : Prop :=
  decodeWord false 0xD125 = some (.drw 1 2 5) ∧ decodeWord false 0x00EE = some (.ret 0) ∧
  decodeWord false 0x00E0 = some (.cls 0) ∧ decodeWord false 0x2ABC = some (.call 0xABC) ∧
  decodeWord false 0x332A = some (.seByte 3 0x2A) ∧ decodeWord false 0x812E = some (.shl 1 2) ∧
  decodeWord false 0xA2F0 = some (.ldI 0x2F0) ∧ decodeWord false 0xE49E = some (.skp 4) ∧
  decodeWord false 0xF255 = some (.storeRegs 2) ∧ decodeWord false 0xC30F = some (.rnd 3 0x0F) ∧
  decodeWord false 0x5AB7 = some (.seReg 0xA 0xB 7) ∧ decodeWord true 0x5AB7 = none ∧
  decodeWord false 0x0000 = none ∧ decodeWord false 0x8008 = none ∧ decodeWord false 0xFFFF = none

/-- R81, R82, R83, R90: decoding the encoding of a well-formed instruction gives it back, every operand at every value,
under either setting of `STRICT_DECODE`. The unconsulted bits count among the operands because the model's terms keep them:
its choice (log 15). -/
def Obligations.DecodeOfEncodeIsIdentity : Prop :=
  ∀ (strict : Bool) (i : Instr), WellFormed strict i = true → decodeWord strict (encode i) = some i

/-- R81, R88, R90: a word that decodes is the encoding of the instruction it decodes to, which is well formed. That every
bit comes back, the bits that the dispatch does not consult included, is the model's choice and no rule of the spec: the
terms keep those bits (log 15); by R86 and R96 an assembler emits one form only. -/
def Obligations.EncodeOfDecodeIsIdentity : Prop :=
  ∀ (strict : Bool) (w : Word) (i : Instr), decodeWord strict w = some i → encode i = w ∧ WellFormed strict i = true

/-- R88: no word selects two rows of the table, under either setting of `STRICT_DECODE`. -/
def Obligations.NoWordSelectsTwoRows : Prop :=
  ∀ (strict : Bool) (w : Word), (opcodeTable.filter fun row => row.selects strict w).length ≤ 1

/-- R91 (R84, R85): the search of the table is the dispatch procedure. Both carry the unconsulted bits into the term, the
model's choice (log 15). -/
def Obligations.TableDecodeIsDispatchProcedure : Prop :=
  ∀ w : Word, decodeWord false w = select w

/-- R87 (D3, log 15): `STRICT_DECODE` refuses exactly the words whose unconsulted bits are not zero, and changes nothing else. -/
def Obligations.StrictDecodeOnlyRefusesIgnoredBits : Prop :=
  ∀ (w : Word) (i : Instr),
    decodeWord true w = some i ↔ (decodeWord false w = some i ∧ WellFormed true i = true)

/-- R94: the illegal opcodes, with `STRICT_DECODE` = false, are exactly those of the rule's table. -/
def Obligations.IllegalOpcodesAreThoseOfTheTable : Prop :=
  ∀ w : Word, decodeWord false w = none ↔
    ((Fields.of w).op = 0x0 ∧ (Fields.of w).kk ∉ [0xE0, 0xEE]) ∨
    ((Fields.of w).op = 0x8 ∧ (Fields.of w).n ∈ [0x8, 0x9, 0xA, 0xB, 0xC, 0xD, 0xF]) ∨
    ((Fields.of w).op = 0xE ∧ (Fields.of w).kk ∉ [0x9E, 0xA1]) ∨
    ((Fields.of w).op = 0xF ∧ (Fields.of w).kk ∉ [0x07, 0x0A, 0x15, 0x18, 0x1E, 0x29, 0x33, 0x55, 0x65])

/-! ### The step -/

/-- R32, R50: a running block whose PC is even and at most 0xFFE, and whose two bytes at PC, high byte first, are a word
that decodes, steps as that instruction executes; the step adds nothing around it. -/
def Obligations.StepRunsDecodedInstruction : Prop :=
  ∀ (s : State) (w : Word) (i : Instr), s.halt = false → s.pc.toNat % 2 = 0 → s.pc.toNat ≤ 0xFFE →
    w.toNat = (s.mem.read s.pc.toNat).toNat * 256 + (s.mem.read (s.pc.toNat + 1)).toNat →
    decodeWord s.cfg.strictDecode w = some i → step s = exec i s

/-- The host's interface: the step after placing an instruction's opcode runs that instruction, and placing it in a
state that can fetch changes only the two bytes at PC. -/
def Obligations.PlacedOpcodeIsStepped : Prop :=
  ∀ (s : State) (i : Instr), s.mem.wf → WellFormed s.cfg.strictDecode i = true →
    step (s.withFetchWord 16 (encode i).toNat) = exec i (s.withFetchWord 16 (encode i).toNat) ∧
    (s.halt = false → s.pc.toNat % 2 = 0 → s.pc.toNat ≤ 0xFFE →
      Keeps (InBlock s.pc.toNat 2) s (s.withFetchWord 16 (encode i).toNat))

/-- R192, R197: a step is refused exactly when the block is halted; every other step gives a next state, so no step
stops the machine with a fault. That a halted step is refused is D18. -/
def Obligations.StepRefusedExactlyWhenHalted : Prop :=
  ∀ s : State, (s.halt = true → step s = .refused .halted) ∧ (s.halt = false → ∃ t, step s = .next t)

/-- R185, R183, R190, R191 with the table R182: a running step faults exactly when the ordered checks say so; then HALT
is true, ERR holds the kind, the PC and the opcode, and nothing else changes; otherwise the step completes. The order,
the record's opcode and preciseness are D9, D8 and D7. -/
def Obligations.StepFaultsExactlyAsOrdered : Prop :=
  ∀ s : State, s.halt = false →
    (∀ k o, faultOf s = some (k, o) → ∃ t, step s = .next t ∧ t.halt = true ∧
      t.err = { kind := k, pc := s.pc, opcode := o } ∧ Keeps (Among [.halt, .err]) s t) ∧
    (faultOf s = none → CompletesStep s)

/-- R182: an instruction takes its own fault exactly on the condition of the table, with its opcode in the record, and
otherwise completes with HALT and ERR as they were. That the opcode is a function of the instruction is the form of the
model's terms (log 15). -/
def Obligations.InstructionsFaultExactlyAsTabulated : Prop :=
  ∀ (i : Instr) (s : State),
    (∀ k, ownFault i s = some k → ∃ t, exec i s = .next t ∧ t.halt = true ∧
      t.err = { kind := k, pc := s.pc, opcode := encode i } ∧ Keeps (Among [.halt, .err]) s t) ∧
    (ownFault i s = none → ∃ t, exec i s = .next t ∧ t.halt = s.halt ∧ t.err = s.err)

/-- R33: the value of PC after every instruction that does not fault, and after the step that executes it. -/
def Obligations.PcAfterInstruction : Prop :=
  ∀ (i : Instr) (s : State), ownFault i s = none →
    ∃ t, exec i s = .next t ∧ t.pc.toNat = nextPC i s ∧ (s.current = some i → step s = .next t)

/-- R35, the w entries: an instruction that does not fault changes only the parts the table names for it (and the
model's own counter of random bytes, for RND: log 1). -/
def Obligations.InstructionsWriteOnlyTheirTableEntries : Prop :=
  ∀ (i : Instr) (s t : State), ownFault i s = none → exec i s = .next t → Keeps (writes i s) s t

/-- R35, the r entries: two states that agree on the parts an instruction reads agree on whether it faults and, when it
does not, on every part it writes afterwards. So no instruction reads ST, only the key instructions read KEY, only draw
reads the display, and so on. For RND, for which R35 lists no r entry, `reads` adds the model's own counter `draws`, which
stands for the step's input `rand`, and `writes` adds it too: the model's choice (log 1). -/
def Obligations.OutcomeDependsOnlyOnTableReads : Prop :=
  ∀ (i : Instr) (s₁ s₂ : State), s₁.mem.wf → s₂.mem.wf → (∀ p, reads i s₁ p → p.same s₁ s₂) →
    ownFault i s₂ = ownFault i s₁ ∧
    (ownFault i s₁ = none → ∃ t₁ t₂, exec i s₁ = .next t₁ ∧ exec i s₂ = .next t₂ ∧
      ∀ p, writes i s₁ p → p.same t₁ t₂)

/-! ### Invariants -/

/-- R36, R210: the invariant holds right after Reset. -/
def Obligations.ResetMeetsInvariant : Prop := Inv State.reset

/-- R37 (with R25, R110, R183): every step keeps the invariant, from every state that meets it. -/
def Obligations.StepKeepsInvariant : Prop :=
  ∀ s t : State, Inv s → step s = .next t → Inv t

/-- R37, R196: whatever transactions the host performs, in whatever order, from construction under any parameters, the
block meets the invariant. -/
def Obligations.EveryHistoryKeepsInvariant : Prop :=
  ∀ (cfg : Config.Params) (ts : List Transaction), Inv ((Session.boot cfg).run ts).machine

/-- R58 (D6): with `ROM_PROTECT`, no step changes a byte of the reserved region, from any state whatever. -/
def Obligations.ProtectedRegionIsNeverWritten : Prop :=
  ∀ s t : State, s.cfg.romProtect = true → step s = .next t → ∀ a, a ≤ 0x1FF → t.mem.read a = s.mem.read a

/-- R192, R37 (D18): once a step has halted the block, no transaction but Reset changes anything but the key flags and
the two timers, which the host's SetKeys and TimerTick still write (R196). -/
def Obligations.HaltedUntilReset : Prop :=
  ∀ (p : Session) (ts : List Transaction), p.machine.halt = true → p.mayLoad = false → (∀ x ∈ ts, x ≠ .reset) →
    Keeps (fun q => IsKey q ∨ q = .dt ∨ q = .st) p.machine (p.run ts).machine

/-- R34, R206: a step of a waiting block changes nothing at all, not even the model's own counter. -/
def Obligations.WaitingStepIsIdentity : Prop :=
  ∀ s : State, s.condition = .waiting → step s = .next s

/-- R111 (corner case), R224 (D27, log 13): the model's end of a run, a jump to itself, is a state that every further
step leaves as it is. -/
def Obligations.EndOfRunIsAFixedPoint : Prop :=
  ∀ s : State, AtEndOfRun s → step s = .next s

/-- R66, R63, R50: after LD [I], Vx, a fetch at an even address inside the stored block finds the two registers stored
there, high byte first: a store is seen by the next fetch. -/
def Obligations.StoredBytesAreFetched : Prop :=
  ∀ (x r q : Reg) (s : State), s.mem.wf → (s.cfg.romProtect = true → 0x200 ≤ s.i.toNat) →
    s.i.toNat + x.val ≤ 4095 → q.val = r.val + 1 → q ≤ x → (s.i.toNat + r.val) % 2 = 0 →
    ∃ t w, exec (.storeRegs x) s = .next t ∧ (t.jump (BitVec.ofNat 16 (s.i.toNat + r.val))).fetch = .ok w ∧
      w.toNat = (s.reg r).toNat * 256 + (s.reg q).toNat

/-! ### The memory primitives -/

/-- R55: MemRead faults above 4095 and otherwise returns the byte, the reserved region included. -/
def Obligations.MemReadChecksBounds : Prop :=
  ∀ (s : State) (a : Nat), (4095 < a → s.memRead a = .error .boundsError) ∧ (a ≤ 4095 → s.memRead a = .ok (s.mem.read a))

/-- R57, R58 (D6): MemWrite faults above 4095, faults in the reserved region when `ROM_PROTECT`, and otherwise changes
that one byte to the value and nothing else. -/
def Obligations.MemWriteChecksBoundsAndProtection : Prop :=
  ∀ (s : State) (a : Nat) (v : Byte), s.mem.wf →
    (4095 < a → s.memWrite a v = .error .boundsError) ∧
    (s.cfg.romProtect = true → a ≤ 0x1FF → s.memWrite a v = .error .reservedWrite) ∧
    (a ≤ 4095 → (s.cfg.romProtect = false ∨ 0x1FF < a) →
      ∃ t, s.memWrite a v = .ok t ∧ t.mem.read a = v ∧ t.mem.wf ∧ Keeps (Among [.byte a]) s t)

/-- R53, R56, R57, R156, R191: a block access, which is what every instruction that touches memory uses, is the sequence
of its single-byte accesses in ascending order, so it faults exactly when one of its bytes does, with the fault of the
first that does, and then moves nothing; an access of one byte is MemRead or MemWrite. -/
def Obligations.BlockAccessIsSequenceOfByteAccesses : Prop :=
  ∀ (s : State) (a : Nat),
    (∀ n, s.readBlock a n = (List.range n).mapM fun k => s.memRead (a + k)) ∧
    (∀ vs : List Byte, s.writeBlock a vs = vs.zipIdx.foldlM (fun t p => t.memWrite (a + p.2) p.1) s) ∧
    s.readBlock a 1 = (s.memRead a).map (fun b => [b]) ∧
    (∀ v, s.writeBlock a [v] = s.memWrite a v)

/-! ### Control flow -/

/-- R110: RET with a non-empty stack continues at the popped address plus 2; the slot keeps its content. -/
def Obligations.ReturnPopsAndAdvances : Prop :=
  ∀ (x : Nibble) (s : State) (k : Fin 16), s.sp.val = k.val + 1 →
    ∃ t, exec (.ret x) s = .next t ∧ t.sp.val = k.val ∧ t.pc.toNat = ((s.stack.get k).toNat + 2) % 65536 ∧
      Keeps (Among [.pc, .sp]) s t

/-- R112: CALL with room on the stack pushes its own address and goes to nnn. -/
def Obligations.CallPushesItsOwnAddress : Prop :=
  ∀ (nnn : Addr12) (s : State) (k : Fin 16), s.sp.val = k.val →
    ∃ t, exec (.call nnn) s = .next t ∧ t.sp.val = k.val + 1 ∧ t.stack.get k = s.pc ∧ t.pc.toNat = nnn.toNat ∧
      Keeps (Among [.pc, .sp, .slot k]) s t

/-- R119, S6 (conflict C2): a return right after a call continues after the call, with the stack depth it had. -/
def Obligations.CallThenReturnContinuesAfterTheCall : Prop :=
  ∀ (nnn : Addr12) (x : Nibble) (s : State), s.sp.val < 16 →
    ∃ t u, exec (.call nnn) s = .next t ∧ exec (.ret x) t = .next u ∧ u.pc.toNat = (s.pc.toNat + 2) % 65536 ∧
      Keeps (fun p => p = .pc ∨ SlotAt s.sp.val p) s u

/-- R111, R113: the jumps set PC and nothing else, from any PC; the offset sum is not reduced to 12 bits (D16, log 9). -/
def Obligations.JumpsSetPc : Prop :=
  ∀ (nnn : Addr12) (s : State),
    (∃ t, exec (.jp nnn) s = .next t ∧ t.pc.toNat = nnn.toNat ∧ Keeps (Among [.pc]) s t) ∧
    (∃ t, exec (.jpV0 nnn) s = .next t ∧ t.pc.toNat = nnn.toNat + (s.reg 0).toNat ∧ Keeps (Among [.pc]) s t)

/-- R114, R115: the skips on a byte. -/
def Obligations.SkipsOnByte : Prop :=
  ∀ (x : Reg) (kk : Byte) (s : State),
    (∃ t, exec (.seByte x kk) s = .next t ∧ Keeps (Among [.pc]) s t ∧
      (s.reg x = kk → t.pc.toNat = (s.pc.toNat + 4) % 65536) ∧
      (s.reg x ≠ kk → t.pc.toNat = (s.pc.toNat + 2) % 65536)) ∧
    (∃ t, exec (.sneByte x kk) s = .next t ∧ Keeps (Among [.pc]) s t ∧
      (s.reg x ≠ kk → t.pc.toNat = (s.pc.toNat + 4) % 65536) ∧
      (s.reg x = kk → t.pc.toNat = (s.pc.toNat + 2) % 65536))

/-- R116, R117: the skips on a register, whatever the unconsulted bits n hold; with x = y the first always skips and the
second never. -/
def Obligations.SkipsOnRegister : Prop :=
  ∀ (x y : Reg) (n : Nibble) (s : State),
    (∃ t, exec (.seReg x y n) s = .next t ∧ Keeps (Among [.pc]) s t ∧
      (s.reg x = s.reg y → t.pc.toNat = (s.pc.toNat + 4) % 65536) ∧
      (s.reg x ≠ s.reg y → t.pc.toNat = (s.pc.toNat + 2) % 65536)) ∧
    (∃ t, exec (.sneReg x y n) s = .next t ∧ Keeps (Among [.pc]) s t ∧
      (s.reg x ≠ s.reg y → t.pc.toNat = (s.pc.toNat + 4) % 65536) ∧
      (s.reg x = s.reg y → t.pc.toNat = (s.pc.toNat + 2) % 65536))

/-! ### Loads, logic, arithmetic -/

/-- R135 (with the values of R130 to R134): each of the five instructions completes, ends with PC + 2, writes Vx and
nothing else (VF when x = 15, as an ordinary register), and neither reads nor writes memory. -/
def Obligations.LoadAndLogicWriteOnlyVx : Prop :=
  ∀ (x y : Reg) (kk : Byte) (i : Instr) (r : State → Byte),
    ((i = .ldByte x kk ∧ r = fun _ => kk) ∨
     (i = .ldReg x y ∧ r = fun s => s.reg y) ∨
     (i = .orReg x y ∧ r = fun s => s.reg x ||| s.reg y) ∨
     (i = .andReg x y ∧ r = fun s => s.reg x &&& s.reg y) ∨
     (i = .xorReg x y ∧ r = fun s => s.reg x ^^^ s.reg y)) →
    ∀ (s : State) (m : Memory), ∃ t, exec i s = .next t ∧ t.reg x = r s ∧
      t.pc.toNat = (s.pc.toNat + 2) % 65536 ∧ Keeps (Among [.pc, .reg x]) s t ∧
      exec i (s.setMem m) = .next (t.setMem m)

/-- R141: the sum modulo 256; VF is not written unless it is the destination. -/
def Obligations.AddByteWrapsWithoutFlag : Prop :=
  ∀ (x : Reg) (kk : Byte) (s : State),
    ∃ t, exec (.addByte x kk) s = .next t ∧ (t.reg x).toNat = ((s.reg x).toNat + kk.toNat) % 256 ∧
      t.pc.toNat = (s.pc.toNat + 2) % 65536 ∧ Keeps (Among [.pc, .reg x]) s t

/-- R142 for a destination other than VF (y may be VF: its value before the instruction is the addend, D11, log 8). -/
def Obligations.AddRegSetsCarry : Prop :=
  ∀ (x y : Reg) (s : State), x ≠ VF →
    ∃ t, exec (.addReg x y) s = .next t ∧ (t.reg x).toNat = ((s.reg x).toNat + (s.reg y).toNat) % 256 ∧
      (t.reg VF).toNat = (if 255 < (s.reg x).toNat + (s.reg y).toNat then 1 else 0) ∧
      t.pc.toNat = (s.pc.toNat + 2) % 65536 ∧ Keeps (Among [.pc, .reg x, .reg VF]) s t

/-- R143, R145 for a destination other than VF: the difference wraps as two's complement and VF is NOT borrow, 1 in the
equal case (y may be VF: D11, log 8). -/
def Obligations.SubtractionsSetNotBorrow : Prop :=
  ∀ (x y : Reg) (s : State), x ≠ VF →
    (∃ t, exec (.subReg x y) s = .next t ∧
      ((t.reg x).toNat : Int) = (((s.reg x).toNat : Int) - ((s.reg y).toNat : Int)) % 256 ∧
      (t.reg VF).toNat = (if (s.reg y).toNat ≤ (s.reg x).toNat then 1 else 0) ∧
      t.pc.toNat = (s.pc.toNat + 2) % 65536 ∧ Keeps (Among [.pc, .reg x, .reg VF]) s t) ∧
    (∃ t, exec (.subnReg x y) s = .next t ∧
      ((t.reg x).toNat : Int) = (((s.reg y).toNat : Int) - ((s.reg x).toNat : Int)) % 256 ∧
      (t.reg VF).toNat = (if (s.reg x).toNat ≤ (s.reg y).toNat then 1 else 0) ∧
      t.pc.toNat = (s.pc.toNat + 2) % 65536 ∧ Keeps (Among [.pc, .reg x, .reg VF]) s t)

/-- R144, R146 (conflict C5) for a destination other than VF: Vx shifts in place by one, VF is the bit shifted out, and
the y field changes nothing. -/
def Obligations.ShiftsSetTheBitShiftedOut : Prop :=
  ∀ (x : Reg) (y : Nibble) (s : State), x ≠ VF →
    (∃ t, exec (.shr x y) s = .next t ∧ (t.reg x).toNat = (s.reg x).toNat / 2 ∧
      (t.reg VF).toNat = (s.reg x).toNat % 2 ∧
      t.pc.toNat = (s.pc.toNat + 2) % 65536 ∧ Keeps (Among [.pc, .reg x, .reg VF]) s t) ∧
    (∃ t, exec (.shl x y) s = .next t ∧ (t.reg x).toNat = (s.reg x).toNat * 2 % 256 ∧
      (t.reg VF).toNat = (s.reg x).toNat / 128 ∧
      t.pc.toNat = (s.pc.toNat + 2) % 65536 ∧ Keeps (Among [.pc, .reg x, .reg VF]) s t)

/-- R140 (D11, log 8): with VF as the destination of the five flag-producing instructions the result lands last, so VF
ends with the result, computed from the values before the instruction, and the flag is lost. -/
def Obligations.FlagInstructionsIntoVFKeepTheResult : Prop :=
  ∀ (y : Reg) (m : Nibble) (s : State) (i : Instr) (r : Int),
    ((i = .addReg VF y ∧ r = ((s.reg VF).toNat : Int) + ((s.reg y).toNat : Int)) ∨
     (i = .subReg VF y ∧ r = ((s.reg VF).toNat : Int) - ((s.reg y).toNat : Int)) ∨
     (i = .subnReg VF y ∧ r = ((s.reg y).toNat : Int) - ((s.reg VF).toNat : Int)) ∨
     (i = .shr VF m ∧ r = ((s.reg VF).toNat : Int) / 2) ∨
     (i = .shl VF m ∧ r = ((s.reg VF).toNat : Int) * 2)) →
    ∃ t, exec i s = .next t ∧ ((t.reg VF).toNat : Int) = r % 256 ∧
      t.pc.toNat = (s.pc.toNat + 2) % 65536 ∧ Keeps (Among [.pc, .reg VF]) s t

/-! ### The address register and memory -/

/-- R150. -/
def Obligations.SetAddressRegister : Prop :=
  ∀ (nnn : Addr12) (s : State),
    ∃ t, exec (.ldI nnn) s = .next t ∧ t.i.toNat = nnn.toNat ∧ t.pc.toNat = (s.pc.toNat + 2) % 65536 ∧
      Keeps (Among [.pc, .i]) s t

/-- R151: the sum wraps at 16 bits (D16, log 9); VF is written only when `ADD_I_SETS_VF`, by the threshold 0x0FFF (D15,
log 7); with x = 15 the old VF is the addend (D11, log 8). -/
def Obligations.AddToAddressRegister : Prop :=
  ∀ (x : Reg) (s : State),
    ∃ t, exec (.addI x) s = .next t ∧ t.i.toNat = (s.i.toNat + (s.reg x).toNat) % 65536 ∧
      t.pc.toNat = (s.pc.toNat + 2) % 65536 ∧
      (s.cfg.addISetsVF = false → Keeps (Among [.pc, .i]) s t) ∧
      (s.cfg.addISetsVF = true → Keeps (Among [.pc, .i, .reg VF]) s t ∧
        (t.reg VF).toNat = (if 0x0FFF < s.i.toNat + (s.reg x).toNat then 1 else 0))

/-- R152: a digit selects its sprite's address; a value above 15 is a BoundsError that leaves I alone (D13, log 10). -/
def Obligations.FontDigitAddress : Prop :=
  ∀ (x : Reg) (s : State),
    ((s.reg x).toNat ≤ 15 → ∃ t, exec (.ldF x) s = .next t ∧ t.i.toNat = 5 * (s.reg x).toNat ∧
      t.pc.toNat = (s.pc.toNat + 2) % 65536 ∧ Keeps (Among [.pc, .i]) s t) ∧
    (15 < (s.reg x).toNat → ∃ t, exec (.ldF x) s = .next t ∧ t.halt = true ∧ t.err.kind = .boundsError ∧
      Keeps (Among [.halt, .err]) s t)

/-- R153: the three decimal digits, hundreds at I; every other byte of memory is left alone and I is unchanged. -/
def Obligations.StoreBcdDigits : Prop :=
  ∀ (x : Reg) (s : State), s.mem.wf → s.i.toNat + 2 ≤ 4095 → (s.cfg.romProtect = true → 0x1FF < s.i.toNat) →
    ∃ t, exec (.ldB x) s = .next t ∧
      (t.mem.read s.i.toNat).toNat = (s.reg x).toNat / 100 ∧
      (t.mem.read (s.i.toNat + 1)).toNat = (s.reg x).toNat / 10 % 10 ∧
      (t.mem.read (s.i.toNat + 2)).toNat = (s.reg x).toNat % 10 ∧
      t.mem.wf ∧ t.pc.toNat = (s.pc.toNat + 2) % 65536 ∧ Keeps (fun p => p = .pc ∨ InBlock s.i.toNat 3 p) s t

/-- R154: V0 to Vx at I, I+1, ..., in ascending order; every other byte is left alone and I is unchanged. -/
def Obligations.StoreRegisterBlock : Prop :=
  ∀ (x : Reg) (s : State), s.mem.wf → s.i.toNat + x.val ≤ 4095 → (s.cfg.romProtect = true → 0x1FF < s.i.toNat) →
    ∃ t, exec (.storeRegs x) s = .next t ∧ (∀ r, r ≤ x → t.mem.read (s.i.toNat + r.val) = s.reg r) ∧
      t.mem.wf ∧ t.pc.toNat = (s.pc.toNat + 2) % 65536 ∧
      Keeps (fun p => p = .pc ∨ InBlock s.i.toNat (x.val + 1) p) s t

/-- R155: V0 to Vx from I, I+1, ...; registers above x, memory and I are unchanged. -/
def Obligations.LoadRegisterBlock : Prop :=
  ∀ (x : Reg) (s : State), s.i.toNat + x.val ≤ 4095 →
    ∃ t, exec (.loadRegs x) s = .next t ∧ (∀ r, r ≤ x → t.reg r = s.mem.read (s.i.toNat + r.val)) ∧
      t.pc.toNat = (s.pc.toNat + 2) % 65536 ∧ Keeps (fun p => p = .pc ∨ RegUpTo x p) s t

/-- R154, R155, R156 (D14): loading the block just stored, whatever the registers hold meanwhile, brings V0 to Vx back. -/
def Obligations.StoreThenLoadRestoresRegisters : Prop :=
  ∀ (x : Reg) (s : State) (v : Vector Byte 16), s.mem.wf → s.i.toNat + x.val ≤ 4095 →
    (s.cfg.romProtect = true → 0x1FF < s.i.toNat) →
    ∃ t u, exec (.storeRegs x) s = .next t ∧ exec (.loadRegs x) { t with v := v } = .next u ∧
      ∀ r, r ≤ x → u.reg r = s.reg r

/-! ### The display -/

/-- R160: every cell false, whatever the unconsulted bits x hold; VF is not written. -/
def Obligations.ClearDisplayBlanksEveryCell : Prop :=
  ∀ (x : Nibble) (s : State),
    ∃ t, exec (.cls x) s = .next t ∧ (∀ r c, pixel t.disp r c = false) ∧
      t.pc.toNat = (s.pc.toNat + 2) % 65536 ∧ Keeps (fun p => p = .pc ∨ IsPixel p) s t

/-- R161, R162: a draw that fits memory (or draws no row, whatever I holds: D25) XORs the sprite, wrapped in both
directions, into the display, and VF is 1 exactly when some pixel went from set to unset. The coordinates are the values
of Vx and Vy before VF is written (D11, log 8). -/
def Obligations.DrawXorsTheWrappedSprite : Prop :=
  ∀ (x y : Reg) (n : Nibble) (s : State), (n.toNat = 0 ∨ s.i.toNat + n.toNat ≤ 4096) →
    ∃ t, exec (.drw x y n) s = .next t ∧
      (∀ r c, SpriteCovers s x y n r c → pixel t.disp r c = !pixel s.disp r c) ∧
      (∀ r c, ¬ SpriteCovers s x y n r c → pixel t.disp r c = pixel s.disp r c) ∧
      ((∃ r c, pixel s.disp r c = true ∧ pixel t.disp r c = false) → t.reg VF = 1) ∧
      ((¬ ∃ r c, pixel s.disp r c = true ∧ pixel t.disp r c = false) → t.reg VF = 0) ∧
      t.pc.toNat = (s.pc.toNat + 2) % 65536 ∧ Keeps (fun p => p = .pc ∨ p = .reg VF ∨ IsPixel p) s t

/-- R161 (corner case): drawing the same sprite twice at the same place restores the display, and the second draw reports
a collision exactly when the sprite covers a cell that was unset before the first (the rule's procedure; its corner-case
sentence, "VF = 1 if the sprite has any set bit", holds when such a cell exists: log 14). VF is put back between the
draws, so that the place is the same also when a coordinate is VF. -/
def Obligations.DrawingTwiceRestoresTheDisplay : Prop :=
  ∀ (x y : Reg) (n : Nibble) (s : State), (n.toNat = 0 ∨ s.i.toNat + n.toNat ≤ 4096) →
    ∃ t u, exec (.drw x y n) s = .next t ∧ exec (.drw x y n) (t.setReg VF (s.reg VF)) = .next u ∧
      u.disp = s.disp ∧
      (u.reg VF = 1 ↔ ∃ r c, SpriteCovers s x y n r c ∧ pixel s.disp r c = false)

/-! ### Keypad, timers, random -/

/-- R170, R171: the key skips, the index being the whole register; an index above 15 is a BoundsError (D13, log 10). -/
def Obligations.KeySkips : Prop :=
  ∀ (x : Reg) (s : State),
    (∀ k : Key, (s.reg x).toNat = k.val →
      (∃ t, exec (.skp x) s = .next t ∧ Keeps (Among [.pc]) s t ∧
        (s.keys.get k = true → t.pc.toNat = (s.pc.toNat + 4) % 65536) ∧
        (s.keys.get k = false → t.pc.toNat = (s.pc.toNat + 2) % 65536)) ∧
      (∃ t, exec (.sknp x) s = .next t ∧ Keeps (Among [.pc]) s t ∧
        (s.keys.get k = false → t.pc.toNat = (s.pc.toNat + 4) % 65536) ∧
        (s.keys.get k = true → t.pc.toNat = (s.pc.toNat + 2) % 65536))) ∧
    (15 < (s.reg x).toNat →
      (∃ t, exec (.skp x) s = .next t ∧ t.halt = true ∧ t.err.kind = .boundsError ∧ Keeps (Among [.halt, .err]) s t) ∧
      (∃ t, exec (.sknp x) s = .next t ∧ t.halt = true ∧ t.err.kind = .boundsError ∧ Keeps (Among [.halt, .err]) s t))

/-- R172, R177: with no key down the instruction changes nothing, PC included; otherwise the same step stores the least
key that is down (D12, log 11) and advances, and no key flag is consumed. -/
def Obligations.WaitForKey : Prop :=
  ∀ (x : Reg) (s : State),
    ((∀ k : Key, s.keys.get k = false) → exec (.ldVxK x) s = .next s) ∧
    (∀ k : Key, s.keys.get k = true → (∀ j, j < k → s.keys.get j = false) →
      ∃ t, exec (.ldVxK x) s = .next t ∧ (t.reg x).toNat = k.val ∧
        t.pc.toNat = (s.pc.toNat + 2) % 65536 ∧ Keeps (Among [.pc, .reg x]) s t)

/-- R173, R174, R175: the three timer copies. -/
def Obligations.TimerLoads : Prop :=
  ∀ (x : Reg) (s : State),
    (∃ t, exec (.ldVxDT x) s = .next t ∧ t.reg x = s.dt ∧ t.pc.toNat = (s.pc.toNat + 2) % 65536 ∧
      Keeps (Among [.pc, .reg x]) s t) ∧
    (∃ t, exec (.ldDTVx x) s = .next t ∧ t.dt = s.reg x ∧ t.pc.toNat = (s.pc.toNat + 2) % 65536 ∧
      Keeps (Among [.pc, .dt]) s t) ∧
    (∃ t, exec (.ldSTVx x) s = .next t ∧ t.st = s.reg x ∧ t.pc.toNat = (s.pc.toNat + 2) % 65536 ∧
      Keeps (Among [.pc, .st]) s t)

/-- R176, R9 (D17, log 1): Vx is the step's random byte, a free value, AND kk: each bit that is 0 in kk is 0 in Vx, and
each bit that is 1 in kk is the random byte's. The next use draws another byte. -/
def Obligations.RandomAnd : Prop :=
  ∀ (x : Reg) (kk : Byte) (s : State),
    ∃ t, exec (.rnd x kk) s = .next t ∧
      (∀ j, j < 8 → (t.reg x).getLsbD j = ((Config.randByte s.draws).getLsbD j && kk.getLsbD j)) ∧
      t.draws = s.draws + 1 ∧ t.pc.toNat = (s.pc.toNat + 2) % 65536 ∧ Keeps (Among [.pc, .reg x, .draws]) s t

/-! ### Reset and the host transactions -/

/-- R36, R210: the state after Reset. That PC is 0x200, that the font's digit 0 is at 0x000 and that memory from 0x050 up
is zero are the source's; the other values are D10 (log 4). All 16 sprites of R61 stand in digit order; the order and the
glyphs of digits 1 to F are D19 (log 5). -/
def Obligations.ResetValues : Prop :=
  State.reset.pc.toNat = 0x200 ∧ (∀ r, State.reset.reg r = 0) ∧ State.reset.i = 0 ∧ State.reset.sp = 0 ∧
  (∀ k, State.reset.stack.get k = 0) ∧ State.reset.dt = 0 ∧ State.reset.st = 0 ∧
  (∀ k, State.reset.keys.get k = false) ∧ (∀ r c, pixel State.reset.disp r c = false) ∧ State.reset.halt = false ∧
  (List.range 16).map (fun d => (List.range 5).map fun k => State.reset.mem.read (5 * d + k)) =
    [[0xF0, 0x90, 0x90, 0x90, 0xF0], [0x20, 0x60, 0x20, 0x20, 0x70], [0xF0, 0x10, 0xF0, 0x80, 0xF0],
     [0xF0, 0x10, 0xF0, 0x10, 0xF0], [0x90, 0x90, 0xF0, 0x10, 0x10], [0xF0, 0x80, 0xF0, 0x10, 0xF0],
     [0xF0, 0x80, 0xF0, 0x90, 0xF0], [0xF0, 0x10, 0x20, 0x40, 0x40], [0xF0, 0x90, 0xF0, 0x90, 0xF0],
     [0xF0, 0x90, 0xF0, 0x10, 0xF0], [0xF0, 0x90, 0xF0, 0x90, 0x90], [0xE0, 0x90, 0xE0, 0x90, 0xE0],
     [0xF0, 0x80, 0x80, 0x80, 0xF0], [0xE0, 0x90, 0x90, 0x90, 0xE0], [0xF0, 0x80, 0xF0, 0x80, 0xF0],
     [0xF0, 0x80, 0xF0, 0x80, 0x80]] ∧
  (∀ a, 0x050 ≤ a → State.reset.mem.read a = 0)

/-- R210, R196, R211 (D10, D18): from any state, Reset gives the reset state (the machine's fixed parameters and the
outside supplier of random bytes apart: log 1, log 2), so a halted block runs again and a loaded program is gone. The
values are those of `State.reset`, the model's own ERR among them (log 4). -/
def Obligations.ResetFromAnyState : Prop :=
  ∀ p : Session, (p.apply .reset).2 = .done ∧ (p.apply .reset).1.mayLoad = true ∧
    Keeps (Among [.cfg, .draws]) State.reset (p.apply .reset).1.machine ∧
    Keeps (fun q => q ≠ .cfg ∧ q ≠ .draws) p.machine (p.apply .reset).1.machine

/-- R212: LoadProgram of 1 to 3584 bytes copies them to 0x200 and up and changes nothing else, so what follows the image
and the reserved region stay as they were; an image of odd length is legal, and loading stays allowed
(R214, D18; the form of `mayLoad` is the model's own, log 16). -/
def Obligations.LoadProgramCopiesTheImage : Prop :=
  ∀ (p : Session) (image : List Byte), p.mayLoad = true → p.machine.mem.wf →
    1 ≤ image.length → image.length ≤ 3584 →
    (p.apply (.loadProgram image)).2 = .done ∧
    (∀ k (h : k < image.length), (p.apply (.loadProgram image)).1.machine.mem.read (0x200 + k) = image[k]) ∧
    Keeps (InBlock 0x200 image.length) p.machine (p.apply (.loadProgram image)).1.machine ∧
    (p.apply (.loadProgram image)).1.mayLoad = p.mayLoad

/-- R213, R214 (D18): an empty or oversized image is a load error, and a load after the first Step is refused; either way
nothing changes, so HALT stays as it was; and a Step that is not refused ends the time in which a program may be
loaded. -/
def Obligations.LoadProgramRejections : Prop :=
  ∀ (p : Session) (image : List Byte),
    (p.mayLoad = true → (image.length = 0 ∨ 3584 < image.length) →
      p.apply (.loadProgram image) = (p, .loadError)) ∧
    (p.mayLoad = false → p.apply (.loadProgram image) = (p, .refused)) ∧
    (p.machine.halt = false → (p.apply .step).1.mayLoad = false)

/-- R198: SetKeys writes all 16 key flags at once and changes nothing else, the time for loading included
(R214, D18; the form of `mayLoad` is the model's own, log 16). -/
def Obligations.SetKeysWritesEveryFlag : Prop :=
  ∀ (p : Session) (keys : Vector Bool 16),
    (∀ k : Key, (p.apply (.setKeys keys)).1.machine.keys.get k = keys.get k) ∧
    Keeps IsKey p.machine (p.apply (.setKeys keys)).1.machine ∧
    (p.apply (.setKeys keys)).1.mayLoad = p.mayLoad

/-- R199: TimerTick decrements each timer by 1, floored at 0, each according to its own value, and changes nothing
else, the time for loading included
(R214, D18; the form of `mayLoad` is the model's own, log 16). -/
def Obligations.TimerTickDecrementsEachTimer : Prop :=
  ∀ p : Session,
    (p.apply .timerTick).1.machine.dt.toNat = p.machine.dt.toNat - 1 ∧
    (p.apply .timerTick).1.machine.st.toNat = p.machine.st.toNat - 1 ∧
    Keeps (Among [.dt, .st]) p.machine (p.apply .timerTick).1.machine ∧
    (p.apply .timerTick).1.mayLoad = p.mayLoad

/-- R197, R183, R163 (D26), R192: what a Step does to the session and what it returns. While HALT it is refused and
changes nothing. Otherwise the block is left in the state that `step` answers and the time for loading is over, and the
reply is the fault record when the step faulted, and else completed, with the redraw hint true exactly when the
instruction executed was clear display or draw. -/
def Obligations.StepReplies : Prop :=
  ∀ p : Session,
    (p.machine.halt = true → p.apply .step = (p, .refused)) ∧
    (∀ t, step p.machine = .next t → t.halt = true →
      p.apply .step = ({ machine := t, mayLoad := false }, .faulted t.err)) ∧
    (∀ i t, p.machine.current = some i → step p.machine = .next t → t.halt = false →
      (p.apply .step).1 = { machine := t, mayLoad := false } ∧
      ((p.apply .step).2 = .completed true ∧ ((∃ x, i = .cls x) ∨ ∃ x y n, i = .drw x y n) ∨
       (p.apply .step).2 = .completed false ∧ ¬ ((∃ x, i = .cls x) ∨ ∃ x y n, i = .drw x y n)))

/-- R200, R201 (D8): ReadDisplay and ReadStatus return the display, HALT and, when HALT is true, ERR, and change
nothing. -/
def Obligations.QueriesChangeNothing : Prop :=
  ∀ p : Session,
    p.apply .readDisplay = (p, .display p.machine.disp) ∧
    (p.machine.halt = true → p.apply .readStatus = (p, .status true (some p.machine.err))) ∧
    (p.machine.halt = false → p.apply .readStatus = (p, .status false none))
end

