-- ==== Sys2Proof/Laws/Decode.lean ====
section
/-! SUPPORT. The laws of opcodes as four nibbles: the fields of an assembled word, a word from its fields, masking nibble
by nibble, and what each of the four masks of the opcode table tests. -/

namespace Sys2Proof

@[simp] theorem regOf_nibbleOf (r : Reg) : regOf (nibbleOf r) = r := rfl

@[simp] theorem nibbleOf_regOf (b : Nibble) : nibbleOf (regOf b) = b := rfl

/-- A concatenation as a number. -/
theorem append_toNat {m n : Nat} (a : BitVec m) (b : BitVec n) : (a ++ b).toNat = a.toNat * 2 ^ n + b.toNat := by
  rw [BitVec.toNat_append, ← Nat.shiftLeft_add_eq_or_of_lt b.isLt, Nat.shiftLeft_eq]

/-- A word assembled from four nibbles, as a number. -/
theorem wordOfNibbles_toNat (op x y n : Nibble) :
    (wordOfNibbles op x y n).toNat = op.toNat * 4096 + x.toNat * 256 + y.toNat * 16 + n.toNat := by
  unfold wordOfNibbles
  rw [append_toNat, append_toNat, append_toNat]
  omega

/-- The six fields of a word assembled from four nibbles (R81, R82). -/
theorem Fields.of_wordOfNibbles (op x y n : Nibble) :
    Fields.of (wordOfNibbles op x y n) = { op := op, nnn := x ++ y ++ n, n := n, x := x, y := y, kk := y ++ n } := by
  have h := wordOfNibbles_toNat op x y n
  have h1 : (x ++ y ++ n : BitVec 12).toNat = x.toNat * 256 + y.toNat * 16 + n.toNat := by
    rw [append_toNat, append_toNat]; omega
  have h2 : (y ++ n : BitVec 8).toNat = y.toNat * 16 + n.toNat := by
    rw [append_toNat]; omega
  have := op.isLt; have := x.isLt; have := y.isLt; have := n.isLt
  simp only [Fields.of, Fields.mk.injEq]
  refine ⟨?_, ?_, ?_, ?_, ?_, ?_⟩ <;> apply BitVec.eq_of_toNat_eq <;>
    rw [BitVec.extractLsb'_toNat, Nat.shiftRight_eq_div_pow, h] <;> try rw [h1]
  all_goals try rw [h2]
  all_goals omega

/-- A word is assembled from its own four nibbles (R82). -/
theorem wordOfNibbles_of (w : Word) :
    wordOfNibbles (Fields.of w).op (Fields.of w).x (Fields.of w).y (Fields.of w).n = w := by
  apply BitVec.eq_of_toNat_eq
  rw [wordOfNibbles_toNat]
  simp only [Fields.of, BitVec.extractLsb'_toNat, Nat.shiftRight_eq_div_pow]
  have := w.isLt
  omega

/-- The overlapping fields in terms of the four nibbles: `nnn = x || y || n` and `kk = y || n` (R81). -/
theorem Fields.of_nnn (w : Word) : (Fields.of w).nnn = (Fields.of w).x ++ (Fields.of w).y ++ (Fields.of w).n := by
  have h := congrArg Fields.nnn (Fields.of_wordOfNibbles (Fields.of w).op (Fields.of w).x (Fields.of w).y (Fields.of w).n)
  rwa [wordOfNibbles_of] at h

theorem Fields.of_kk (w : Word) : (Fields.of w).kk = (Fields.of w).y ++ (Fields.of w).n := by
  have h := congrArg Fields.kk (Fields.of_wordOfNibbles (Fields.of w).op (Fields.of w).x (Fields.of w).y (Fields.of w).n)
  rwa [wordOfNibbles_of] at h

theorem wordOfNibbles_inj {a b c d a' b' c' d' : Nibble} :
    wordOfNibbles a b c d = wordOfNibbles a' b' c' d' ↔ a = a' ∧ b = b' ∧ c = c' ∧ d = d' := by
  constructor
  · intro h
    have h := congrArg Fields.of h
    simp only [Fields.of_wordOfNibbles, Fields.mk.injEq] at h
    exact ⟨h.1, h.2.2.2.1, h.2.2.2.2.1, h.2.2.1⟩
  · rintro ⟨rfl, rfl, rfl, rfl⟩; rfl

/-- Masking acts nibble by nibble. -/
theorem wordOfNibbles_and (a b c d a' b' c' d' : Nibble) :
    wordOfNibbles a b c d &&& wordOfNibbles a' b' c' d' =
      wordOfNibbles (a &&& a') (b &&& b') (c &&& c') (d &&& d') := by
  unfold wordOfNibbles
  exact BitVec.and_append.trans
    (congrArg (· ++ _) (BitVec.and_append.trans (congrArg (· ++ _) BitVec.and_append)))

theorem kk_nibbles (kk : Byte) : (kk.extractLsb' 4 4 ++ kk.extractLsb' 0 4 : BitVec 8) = kk := by
  apply BitVec.eq_of_toNat_eq
  rw [append_toNat]
  simp only [BitVec.extractLsb'_toNat, Nat.shiftRight_eq_div_pow]
  have := kk.isLt
  omega

theorem nnn_nibbles (nnn : Addr12) :
    (nnn.extractLsb' 8 4 ++ nnn.extractLsb' 4 4 ++ nnn.extractLsb' 0 4 : BitVec 12) = nnn := by
  apply BitVec.eq_of_toNat_eq
  rw [append_toNat, append_toNat]
  simp only [BitVec.extractLsb'_toNat, Nat.shiftRight_eq_div_pow]
  have := nnn.isLt
  omega

/-- Format `NNN` by nibbles. -/
theorem encodeNNN_eq (op : Nibble) (nnn : Addr12) : encodeNNN op nnn =
    wordOfNibbles op (nnn.extractLsb' 8 4) (nnn.extractLsb' 4 4) (nnn.extractLsb' 0 4) := by
  apply BitVec.eq_of_toNat_eq
  rw [wordOfNibbles_toNat, encodeNNN, append_toNat]
  simp only [BitVec.extractLsb'_toNat, Nat.shiftRight_eq_div_pow]
  have := nnn.isLt
  omega

/-- Format `XKK` by nibbles. -/
theorem encodeXKK_eq (op : Nibble) (x : Reg) (kk : Byte) : encodeXKK op x kk =
    wordOfNibbles op (nibbleOf x) (kk.extractLsb' 4 4) (kk.extractLsb' 0 4) := by
  apply BitVec.eq_of_toNat_eq
  rw [wordOfNibbles_toNat, encodeXKK, append_toNat, append_toNat]
  simp only [BitVec.extractLsb'_toNat, Nat.shiftRight_eq_div_pow]
  have := kk.isLt
  omega

@[simp] theorem nibble_and_full (b : Nibble) : b &&& 15#4 = b := BitVec.and_allOnes

/-- A word under a mask of whole nibbles is a given code exactly when the kept nibbles agree and the code has no bit
outside the mask. -/
theorem and_mask_eq (w m c : Word) : w &&& m = c ↔
    (Fields.of w).op &&& (Fields.of m).op = (Fields.of c).op ∧ (Fields.of w).x &&& (Fields.of m).x = (Fields.of c).x ∧
    (Fields.of w).y &&& (Fields.of m).y = (Fields.of c).y ∧ (Fields.of w).n &&& (Fields.of m).n = (Fields.of c).n := by
  conv_lhs => rw [← wordOfNibbles_of w, ← wordOfNibbles_of m, ← wordOfNibbles_of c, wordOfNibbles_and]
  exact wordOfNibbles_inj

/-- What the mask 0xF000 tests: the top nibble (R84). -/
theorem and_F000_eq (w c : Word) : w &&& 0xF000#16 = c ↔
    (Fields.of w).op = (Fields.of c).op ∧ (Fields.of c).nnn = 0 := by
  rw [and_mask_eq, Fields.of_nnn]
  simp only [show Fields.of 0xF000#16 = ⟨15#4, 0#12, 0#4, 0#4, 0#4, 0#8⟩ from rfl, nibble_and_full, BitVec.and_zero]
  constructor
  · rintro ⟨h, h1, h2, h3⟩
    exact ⟨h, by rw [← h1, ← h2, ← h3]; rfl⟩
  · rintro ⟨h, h'⟩
    have := congrArg BitVec.toNat h'
    rw [append_toNat, append_toNat] at this
    refine ⟨h, ?_, ?_, ?_⟩ <;> apply BitVec.eq_of_toNat_eq <;> simp at this ⊢ <;> omega

/-- What the mask 0xF00F tests: the top nibble and `n` (R85, R87). -/
theorem and_F00F_eq (w c : Word) : w &&& 0xF00F#16 = c ↔
    (Fields.of w).op = (Fields.of c).op ∧ (Fields.of w).n = (Fields.of c).n ∧
      (Fields.of c).x = 0 ∧ (Fields.of c).y = 0 := by
  rw [and_mask_eq]
  simp only [show Fields.of 0xF00F#16 = ⟨15#4, 15#12, 15#4, 0#4, 0#4, 15#8⟩ from rfl, nibble_and_full, BitVec.and_zero]
  constructor
  · rintro ⟨h, h1, h2, h3⟩; exact ⟨h, h3, h1.symm, h2.symm⟩
  · rintro ⟨h, h1, h2, h3⟩; exact ⟨h, h2.symm, h3.symm, h1⟩

/-- What the mask 0xF0FF tests: the top nibble and `kk` (R85). -/
theorem and_F0FF_eq (w c : Word) : w &&& 0xF0FF#16 = c ↔
    (Fields.of w).op = (Fields.of c).op ∧ (Fields.of w).kk = (Fields.of c).kk ∧ (Fields.of c).x = 0 := by
  rw [and_mask_eq, Fields.of_kk, Fields.of_kk]
  simp only [show Fields.of 0xF0FF#16 = ⟨15#4, 255#12, 15#4, 0#4, 15#4, 255#8⟩ from rfl, nibble_and_full, BitVec.and_zero]
  constructor
  · rintro ⟨h, h1, h2, h3⟩; exact ⟨h, by rw [h2, h3], h1.symm⟩
  · rintro ⟨h, h1, h2⟩
    have := congrArg BitVec.toNat h1
    rw [append_toNat, append_toNat] at this
    have := (Fields.of w).n.isLt; have := (Fields.of c).n.isLt
    refine ⟨h, h2.symm, ?_, ?_⟩ <;> apply BitVec.eq_of_toNat_eq <;> omega

/-- What the mask 0xFFFF tests: the whole word (R87). -/
theorem and_FFFF_eq (w c : Word) : w &&& 0xFFFF#16 = c ↔ w = c := by
  rw [show (0xFFFF#16 : Word) = BitVec.allOnes 16 from rfl, BitVec.and_allOnes]

end Sys2Proof
end

