-- ==== Sys2Proof/Laws/State.lean ====
section
/-! SUPPORT. The small lemmas of the state's updates: one for each field and update, true by rfl, so that no later proof
unfolds a record update; and what each update does to the registers. -/

namespace Sys2Proof.Machine.State

section setReg
variable (s : State) (r : Reg) (b : Byte)
@[simp] theorem setReg_i : (s.setReg r b).i = s.i := rfl
@[simp] theorem setReg_pc : (s.setReg r b).pc = s.pc := rfl
@[simp] theorem setReg_sp : (s.setReg r b).sp = s.sp := rfl
@[simp] theorem setReg_stack : (s.setReg r b).stack = s.stack := rfl
@[simp] theorem setReg_dt : (s.setReg r b).dt = s.dt := rfl
@[simp] theorem setReg_st : (s.setReg r b).st = s.st := rfl
@[simp] theorem setReg_keys : (s.setReg r b).keys = s.keys := rfl
@[simp] theorem setReg_disp : (s.setReg r b).disp = s.disp := rfl
@[simp] theorem setReg_mem : (s.setReg r b).mem = s.mem := rfl
@[simp] theorem setReg_halt : (s.setReg r b).halt = s.halt := rfl
@[simp] theorem setReg_err : (s.setReg r b).err = s.err := rfl
@[simp] theorem setReg_cfg : (s.setReg r b).cfg = s.cfg := rfl
@[simp] theorem setReg_draws : (s.setReg r b).draws = s.draws := rfl
end setReg

section setI
variable (s : State) (w : Word)
@[simp] theorem setI_v : (s.setI w).v = s.v := rfl
@[simp] theorem setI_i : (s.setI w).i = w := rfl
@[simp] theorem setI_pc : (s.setI w).pc = s.pc := rfl
@[simp] theorem setI_sp : (s.setI w).sp = s.sp := rfl
@[simp] theorem setI_stack : (s.setI w).stack = s.stack := rfl
@[simp] theorem setI_dt : (s.setI w).dt = s.dt := rfl
@[simp] theorem setI_st : (s.setI w).st = s.st := rfl
@[simp] theorem setI_keys : (s.setI w).keys = s.keys := rfl
@[simp] theorem setI_disp : (s.setI w).disp = s.disp := rfl
@[simp] theorem setI_mem : (s.setI w).mem = s.mem := rfl
@[simp] theorem setI_halt : (s.setI w).halt = s.halt := rfl
@[simp] theorem setI_err : (s.setI w).err = s.err := rfl
@[simp] theorem setI_cfg : (s.setI w).cfg = s.cfg := rfl
@[simp] theorem setI_draws : (s.setI w).draws = s.draws := rfl
@[simp] theorem setI_reg (q : Reg) : (s.setI w).reg q = s.reg q := rfl
end setI

section jump
variable (s : State) (w : Word)
@[simp] theorem jump_v : (s.jump w).v = s.v := rfl
@[simp] theorem jump_i : (s.jump w).i = s.i := rfl
@[simp] theorem jump_pc : (s.jump w).pc = w := rfl
@[simp] theorem jump_sp : (s.jump w).sp = s.sp := rfl
@[simp] theorem jump_stack : (s.jump w).stack = s.stack := rfl
@[simp] theorem jump_dt : (s.jump w).dt = s.dt := rfl
@[simp] theorem jump_st : (s.jump w).st = s.st := rfl
@[simp] theorem jump_keys : (s.jump w).keys = s.keys := rfl
@[simp] theorem jump_disp : (s.jump w).disp = s.disp := rfl
@[simp] theorem jump_mem : (s.jump w).mem = s.mem := rfl
@[simp] theorem jump_halt : (s.jump w).halt = s.halt := rfl
@[simp] theorem jump_err : (s.jump w).err = s.err := rfl
@[simp] theorem jump_cfg : (s.jump w).cfg = s.cfg := rfl
@[simp] theorem jump_draws : (s.jump w).draws = s.draws := rfl
@[simp] theorem jump_reg (q : Reg) : (s.jump w).reg q = s.reg q := rfl
end jump

section setDT
variable (s : State) (b : Byte)
@[simp] theorem setDT_v : (s.setDT b).v = s.v := rfl
@[simp] theorem setDT_i : (s.setDT b).i = s.i := rfl
@[simp] theorem setDT_pc : (s.setDT b).pc = s.pc := rfl
@[simp] theorem setDT_sp : (s.setDT b).sp = s.sp := rfl
@[simp] theorem setDT_stack : (s.setDT b).stack = s.stack := rfl
@[simp] theorem setDT_dt : (s.setDT b).dt = b := rfl
@[simp] theorem setDT_st : (s.setDT b).st = s.st := rfl
@[simp] theorem setDT_keys : (s.setDT b).keys = s.keys := rfl
@[simp] theorem setDT_disp : (s.setDT b).disp = s.disp := rfl
@[simp] theorem setDT_mem : (s.setDT b).mem = s.mem := rfl
@[simp] theorem setDT_halt : (s.setDT b).halt = s.halt := rfl
@[simp] theorem setDT_err : (s.setDT b).err = s.err := rfl
@[simp] theorem setDT_cfg : (s.setDT b).cfg = s.cfg := rfl
@[simp] theorem setDT_draws : (s.setDT b).draws = s.draws := rfl
@[simp] theorem setDT_reg (q : Reg) : (s.setDT b).reg q = s.reg q := rfl
end setDT

section setST
variable (s : State) (b : Byte)
@[simp] theorem setST_v : (s.setST b).v = s.v := rfl
@[simp] theorem setST_i : (s.setST b).i = s.i := rfl
@[simp] theorem setST_pc : (s.setST b).pc = s.pc := rfl
@[simp] theorem setST_sp : (s.setST b).sp = s.sp := rfl
@[simp] theorem setST_stack : (s.setST b).stack = s.stack := rfl
@[simp] theorem setST_dt : (s.setST b).dt = s.dt := rfl
@[simp] theorem setST_st : (s.setST b).st = b := rfl
@[simp] theorem setST_keys : (s.setST b).keys = s.keys := rfl
@[simp] theorem setST_disp : (s.setST b).disp = s.disp := rfl
@[simp] theorem setST_mem : (s.setST b).mem = s.mem := rfl
@[simp] theorem setST_halt : (s.setST b).halt = s.halt := rfl
@[simp] theorem setST_err : (s.setST b).err = s.err := rfl
@[simp] theorem setST_cfg : (s.setST b).cfg = s.cfg := rfl
@[simp] theorem setST_draws : (s.setST b).draws = s.draws := rfl
@[simp] theorem setST_reg (q : Reg) : (s.setST b).reg q = s.reg q := rfl
end setST

section setDisp
variable (s : State) (d : Display)
@[simp] theorem setDisp_v : (s.setDisp d).v = s.v := rfl
@[simp] theorem setDisp_i : (s.setDisp d).i = s.i := rfl
@[simp] theorem setDisp_pc : (s.setDisp d).pc = s.pc := rfl
@[simp] theorem setDisp_sp : (s.setDisp d).sp = s.sp := rfl
@[simp] theorem setDisp_stack : (s.setDisp d).stack = s.stack := rfl
@[simp] theorem setDisp_dt : (s.setDisp d).dt = s.dt := rfl
@[simp] theorem setDisp_st : (s.setDisp d).st = s.st := rfl
@[simp] theorem setDisp_keys : (s.setDisp d).keys = s.keys := rfl
@[simp] theorem setDisp_disp : (s.setDisp d).disp = d := rfl
@[simp] theorem setDisp_mem : (s.setDisp d).mem = s.mem := rfl
@[simp] theorem setDisp_halt : (s.setDisp d).halt = s.halt := rfl
@[simp] theorem setDisp_err : (s.setDisp d).err = s.err := rfl
@[simp] theorem setDisp_cfg : (s.setDisp d).cfg = s.cfg := rfl
@[simp] theorem setDisp_draws : (s.setDisp d).draws = s.draws := rfl
@[simp] theorem setDisp_reg (q : Reg) : (s.setDisp d).reg q = s.reg q := rfl
end setDisp

section setKeys
variable (s : State) (k : Vector Bool 16)
@[simp] theorem setKeys_v : (s.setKeys k).v = s.v := rfl
@[simp] theorem setKeys_i : (s.setKeys k).i = s.i := rfl
@[simp] theorem setKeys_pc : (s.setKeys k).pc = s.pc := rfl
@[simp] theorem setKeys_sp : (s.setKeys k).sp = s.sp := rfl
@[simp] theorem setKeys_stack : (s.setKeys k).stack = s.stack := rfl
@[simp] theorem setKeys_dt : (s.setKeys k).dt = s.dt := rfl
@[simp] theorem setKeys_st : (s.setKeys k).st = s.st := rfl
@[simp] theorem setKeys_keys : (s.setKeys k).keys = k := rfl
@[simp] theorem setKeys_disp : (s.setKeys k).disp = s.disp := rfl
@[simp] theorem setKeys_mem : (s.setKeys k).mem = s.mem := rfl
@[simp] theorem setKeys_halt : (s.setKeys k).halt = s.halt := rfl
@[simp] theorem setKeys_err : (s.setKeys k).err = s.err := rfl
@[simp] theorem setKeys_cfg : (s.setKeys k).cfg = s.cfg := rfl
@[simp] theorem setKeys_draws : (s.setKeys k).draws = s.draws := rfl
@[simp] theorem setKeys_reg (q : Reg) : (s.setKeys k).reg q = s.reg q := rfl
end setKeys

section setMem
variable (s : State) (m : Memory)
@[simp] theorem setMem_v : (s.setMem m).v = s.v := rfl
@[simp] theorem setMem_i : (s.setMem m).i = s.i := rfl
@[simp] theorem setMem_pc : (s.setMem m).pc = s.pc := rfl
@[simp] theorem setMem_sp : (s.setMem m).sp = s.sp := rfl
@[simp] theorem setMem_stack : (s.setMem m).stack = s.stack := rfl
@[simp] theorem setMem_dt : (s.setMem m).dt = s.dt := rfl
@[simp] theorem setMem_st : (s.setMem m).st = s.st := rfl
@[simp] theorem setMem_keys : (s.setMem m).keys = s.keys := rfl
@[simp] theorem setMem_disp : (s.setMem m).disp = s.disp := rfl
@[simp] theorem setMem_mem : (s.setMem m).mem = m := rfl
@[simp] theorem setMem_halt : (s.setMem m).halt = s.halt := rfl
@[simp] theorem setMem_err : (s.setMem m).err = s.err := rfl
@[simp] theorem setMem_cfg : (s.setMem m).cfg = s.cfg := rfl
@[simp] theorem setMem_draws : (s.setMem m).draws = s.draws := rfl
@[simp] theorem setMem_reg (q : Reg) : (s.setMem m).reg q = s.reg q := rfl
end setMem

section drawn
variable (s : State)
@[simp] theorem drawn_v : (s.drawn).v = s.v := rfl
@[simp] theorem drawn_i : (s.drawn).i = s.i := rfl
@[simp] theorem drawn_pc : (s.drawn).pc = s.pc := rfl
@[simp] theorem drawn_sp : (s.drawn).sp = s.sp := rfl
@[simp] theorem drawn_stack : (s.drawn).stack = s.stack := rfl
@[simp] theorem drawn_dt : (s.drawn).dt = s.dt := rfl
@[simp] theorem drawn_st : (s.drawn).st = s.st := rfl
@[simp] theorem drawn_keys : (s.drawn).keys = s.keys := rfl
@[simp] theorem drawn_disp : (s.drawn).disp = s.disp := rfl
@[simp] theorem drawn_mem : (s.drawn).mem = s.mem := rfl
@[simp] theorem drawn_halt : (s.drawn).halt = s.halt := rfl
@[simp] theorem drawn_err : (s.drawn).err = s.err := rfl
@[simp] theorem drawn_cfg : (s.drawn).cfg = s.cfg := rfl
@[simp] theorem drawn_draws : (s.drawn).draws = s.draws + 1 := rfl
@[simp] theorem drawn_reg (q : Reg) : (s.drawn).reg q = s.reg q := rfl
end drawn

section takeFault
variable (s : State) (k : Fault) (o : Word)
@[simp] theorem takeFault_v : (s.takeFault k o).v = s.v := rfl
@[simp] theorem takeFault_i : (s.takeFault k o).i = s.i := rfl
@[simp] theorem takeFault_pc : (s.takeFault k o).pc = s.pc := rfl
@[simp] theorem takeFault_sp : (s.takeFault k o).sp = s.sp := rfl
@[simp] theorem takeFault_stack : (s.takeFault k o).stack = s.stack := rfl
@[simp] theorem takeFault_dt : (s.takeFault k o).dt = s.dt := rfl
@[simp] theorem takeFault_st : (s.takeFault k o).st = s.st := rfl
@[simp] theorem takeFault_keys : (s.takeFault k o).keys = s.keys := rfl
@[simp] theorem takeFault_disp : (s.takeFault k o).disp = s.disp := rfl
@[simp] theorem takeFault_mem : (s.takeFault k o).mem = s.mem := rfl
@[simp] theorem takeFault_halt : (s.takeFault k o).halt = true := rfl
@[simp] theorem takeFault_err : (s.takeFault k o).err = { kind := k, pc := s.pc, opcode := o } := rfl
@[simp] theorem takeFault_cfg : (s.takeFault k o).cfg = s.cfg := rfl
@[simp] theorem takeFault_draws : (s.takeFault k o).draws = s.draws := rfl
@[simp] theorem takeFault_reg (q : Reg) : (s.takeFault k o).reg q = s.reg q := rfl
end takeFault

/-- A register write is seen at the register written and nowhere else (R20: no register aliases another). -/
@[simp] theorem setReg_reg (s : State) (r q : Reg) (b : Byte) :
    (s.setReg r b).reg q = if q = r then b else s.reg q := by
  simp only [State.reg, State.setReg, Vector.get_eq_getElem, Vector.getElem_set, Fin.val_inj]
  by_cases h : q = r
  · simp [h]
  · simp [h, Ne.symm h]

/-- The auto-advance, a skip and the flag writes in terms of the two plain updates. -/
@[simp] theorem advance_eq (s : State) : s.advance = s.jump (s.pc + 2) := rfl

@[simp] theorem skipIf_eq (s : State) (c : Bool) : s.skipIf c = s.jump (if c then s.pc + 4 else s.pc + 2) := rfl

@[simp] theorem setFlag_eq (s : State) (f : Bool) : s.setFlag f = s.setReg VF (flagByte f) := rfl

@[simp] theorem setFlagThen_eq (s : State) (f : Bool) (x : Reg) (r : Byte) :
    s.setFlagThen f x r = (s.setReg VF (flagByte f)).setReg x r := rfl

/-- Writing several registers changes nothing but registers: it is one update of the register file. -/
theorem setRegs_eq (s : State) (rs : List (Reg × Byte)) : s.setRegs rs = { s with v := (s.setRegs rs).v } := by
  induction rs generalizing s with
  | nil => rfl
  | cons p ps ih => exact ih (s.setReg p.1 p.2)

@[simp] theorem setRegs_nil (s : State) : s.setRegs [] = s := rfl

@[simp] theorem setRegs_cons (s : State) (p : Reg × Byte) (ps : List (Reg × Byte)) :
    s.setRegs (p :: ps) = (s.setReg p.1 p.2).setRegs ps := rfl

@[simp] theorem setRegs_i (s : State) (rs : List (Reg × Byte)) : (s.setRegs rs).i = s.i := by
  rw [setRegs_eq]

@[simp] theorem setRegs_pc (s : State) (rs : List (Reg × Byte)) : (s.setRegs rs).pc = s.pc := by
  rw [setRegs_eq]

@[simp] theorem setRegs_sp (s : State) (rs : List (Reg × Byte)) : (s.setRegs rs).sp = s.sp := by
  rw [setRegs_eq]

@[simp] theorem setRegs_stack (s : State) (rs : List (Reg × Byte)) : (s.setRegs rs).stack = s.stack := by
  rw [setRegs_eq]

@[simp] theorem setRegs_dt (s : State) (rs : List (Reg × Byte)) : (s.setRegs rs).dt = s.dt := by
  rw [setRegs_eq]

@[simp] theorem setRegs_st (s : State) (rs : List (Reg × Byte)) : (s.setRegs rs).st = s.st := by
  rw [setRegs_eq]

@[simp] theorem setRegs_keys (s : State) (rs : List (Reg × Byte)) : (s.setRegs rs).keys = s.keys := by
  rw [setRegs_eq]

@[simp] theorem setRegs_disp (s : State) (rs : List (Reg × Byte)) : (s.setRegs rs).disp = s.disp := by
  rw [setRegs_eq]

@[simp] theorem setRegs_mem (s : State) (rs : List (Reg × Byte)) : (s.setRegs rs).mem = s.mem := by
  rw [setRegs_eq]

@[simp] theorem setRegs_halt (s : State) (rs : List (Reg × Byte)) : (s.setRegs rs).halt = s.halt := by
  rw [setRegs_eq]

@[simp] theorem setRegs_err (s : State) (rs : List (Reg × Byte)) : (s.setRegs rs).err = s.err := by
  rw [setRegs_eq]

@[simp] theorem setRegs_cfg (s : State) (rs : List (Reg × Byte)) : (s.setRegs rs).cfg = s.cfg := by
  rw [setRegs_eq]

@[simp] theorem setRegs_draws (s : State) (rs : List (Reg × Byte)) : (s.setRegs rs).draws = s.draws := by
  rw [setRegs_eq]

/-- A register that is not listed is not written. -/
theorem setRegs_reg_of_not_mem (s : State) (rs : List (Reg × Byte)) (q : Reg) (h : ∀ p ∈ rs, p.1 ≠ q) :
    (s.setRegs rs).reg q = s.reg q := by
  induction rs generalizing s with
  | nil => rfl
  | cons p ps ih =>
    rw [setRegs_cons, ih _ fun p' hp' => h p' (List.mem_cons_of_mem _ hp'), setReg_reg,
      if_neg (Ne.symm (h p List.mem_cons_self))]

/-- Writing the value f r to each register r of a list. -/
theorem setRegs_reg_map (s : State) (rs : List Reg) (f : Reg → Byte) (q : Reg) :
    (s.setRegs (rs.map fun r => (r, f r))).reg q = if q ∈ rs then f q else s.reg q := by
  induction rs generalizing s with
  | nil => simp
  | cons r rs ih =>
    rw [List.map_cons, setRegs_cons, ih, setReg_reg]
    by_cases h : q ∈ rs
    · simp [h]
    · by_cases hq : q = r <;> simp [h, hq]

/-- Reset's registers all read 0 (R36). -/
@[simp] theorem reset_reg (r : Reg) : State.reset.reg r = 0 := by
  simp [State.reg, State.reset, Vector.get_eq_getElem]

/-- The register file is determined by its reads. -/
theorem v_ext {s t : State} (h : ∀ r, t.reg r = s.reg r) : t.v = s.v := by
  ext k hk
  have := h ⟨k, hk⟩
  simp only [State.reg, Vector.get_eq_getElem] at this
  rw [this]

end Sys2Proof.Machine.State
end

