-- ==== Sys2Proof/Laws/Display.lean ====
section
/-! SUPPORT. The laws of the display: flipping one pixel, and a sprite as the list of cells it flips, which are all
different, so that the result and the collision flag depend only on the display before the draw (R161). -/

namespace Sys2Proof.Machine

/-- Flipping a pixel changes that pixel and no other. -/
theorem pixel_flipPixel (d : Display) (r r' : Fin 32) (c c' : Fin 64) :
    pixel (flipPixel d r c) r' c' = if r' = r ∧ c' = c then !pixel d r c else pixel d r' c' := by
  simp only [pixel, flipPixel, Vector.get_eq_getElem, Vector.getElem_set]
  by_cases hr : r' = r
  · subst hr
    by_cases hc : c' = c
    · subst hc; simp
    · have : ¬ c.val = c'.val := fun h => hc (Fin.ext h.symm)
      simp [hc, this]
  · have : ¬ r.val = r'.val := fun h => hr (Fin.ext h.symm)
    simp [hr, this]

/-- Every cell of the blank display is false. -/
@[simp] theorem pixel_blankDisplay (r : Fin 32) (c : Fin 64) : pixel blankDisplay r c = false := by
  simp [pixel, blankDisplay, Vector.get_eq_getElem]

/-- A display is determined by its pixels. -/
theorem display_ext {d e : Display} (h : ∀ r c, pixel d r c = pixel e r c) : d = e := by
  ext i hi j hj
  have := h ⟨i, hi⟩ ⟨j, hj⟩
  simpa only [pixel, Vector.get_eq_getElem] using this

/-- A cell of the display. -/
abbrev Cell := Fin 32 × Fin 64

/-- XOR of a set bit into each cell of a list. -/
def Canvas.plotAll (k : Canvas) (cells : List Cell) : Canvas := cells.foldl (fun k p => k.plot p.1 p.2) k

theorem Canvas.plotAll_cons (k : Canvas) (p : Cell) (ps : List Cell) :
    k.plotAll (p :: ps) = (k.plot p.1 p.2).plotAll ps := rfl

theorem Canvas.plotAll_append (k : Canvas) (ps qs : List Cell) : k.plotAll (ps ++ qs) = (k.plotAll ps).plotAll qs := by
  simp [Canvas.plotAll]

/-- Cells that are all different: each is flipped once. -/
theorem Canvas.pixel_plotAll (k : Canvas) (cells : List Cell) (h : cells.Nodup) (r : Fin 32) (c : Fin 64) :
    pixel (k.plotAll cells).disp r c = (if (r, c) ∈ cells then !pixel k.disp r c else pixel k.disp r c) := by
  induction cells generalizing k with
  | nil => simp [Canvas.plotAll]
  | cons p ps ih =>
    obtain ⟨hp, hps⟩ := List.nodup_cons.1 h
    rw [Canvas.plotAll_cons, ih _ hps]
    simp only [Canvas.plot, pixel_flipPixel, List.mem_cons, Prod.ext_iff]
    by_cases hc : r = p.1 ∧ c = p.2
    · have : (r, c) ∉ ps := by rw [hc.1, hc.2]; exact hp
      rw [if_neg this, if_pos hc, if_pos (.inl hc), hc.1, hc.2]
    · by_cases hm : (r, c) ∈ ps <;> simp [hc, hm]

/-- Cells that are all different: the collision flag says whether one of them was set before. -/
theorem Canvas.hit_plotAll (k : Canvas) (cells : List Cell) (h : cells.Nodup) :
    (k.plotAll cells).hit = (k.hit || cells.any fun p => pixel k.disp p.1 p.2) := by
  induction cells generalizing k with
  | nil => simp [Canvas.plotAll]
  | cons p ps ih =>
    obtain ⟨hp, hps⟩ := List.nodup_cons.1 h
    rw [Canvas.plotAll_cons, ih _ hps, List.any_cons, ← Bool.or_assoc]
    have : (ps.any fun q => pixel (k.plot p.1 p.2).disp q.1 q.2) = ps.any fun q => pixel k.disp q.1 q.2 := by
      rw [Bool.eq_iff_iff, List.any_eq_true, List.any_eq_true]
      refine exists_congr fun q => and_congr_right fun hq => ?_
      have hne : ¬ (q.1 = p.1 ∧ q.2 = p.2) := fun e => hp (by rwa [← Prod.ext e.1 e.2])
      rw [Canvas.plot, pixel_flipPixel, if_neg hne]
    rw [this]
    rfl

/-- The cells that one sprite row flips: one for each set bit, bit 7 leftmost. -/
def rowCells (vx : Nat) (r : Fin 32) (b : Byte) : List Cell :=
  ((List.range 8).filter fun col => b.getLsbD (7 - col)).map fun col => (r, colAt vx col)

/-- The cells that a sprite flips, from sprite row `row` on. -/
def spriteCells (vx vy : Nat) : Nat → List Byte → List Cell
  | _, [] => []
  | row, b :: bs => rowCells vx (rowAt vy row) b ++ spriteCells vx vy (row + 1) bs

theorem Canvas.drawRow_eq (vx : Nat) (r : Fin 32) (b : Byte) (k : Canvas) :
    k.drawRow vx r b = k.plotAll (rowCells vx r b) := by
  rw [Canvas.drawRow, rowCells, Canvas.plotAll, List.foldl_map, List.foldl_filter]

theorem Canvas.drawRows_eq (vx vy row : Nat) (bs : List Byte) (k : Canvas) :
    Canvas.drawRows vx vy row bs k = k.plotAll (spriteCells vx vy row bs) := by
  induction bs generalizing row k with
  | nil => rfl
  | cons b bs ih => rw [Canvas.drawRows, ih, Canvas.drawRow_eq, spriteCells, Canvas.plotAll_append]

/-- Drawing a sprite flips its cells, starting with no collision. -/
theorem drawSprite_eq (vx vy : Nat) (rows : List Byte) (d : Display) :
    drawSprite vx vy rows d = Canvas.plotAll { disp := d, hit := false } (spriteCells vx vy 0 rows) :=
  Canvas.drawRows_eq ..

theorem mem_rowCells {vx : Nat} {r : Fin 32} {b : Byte} {p : Cell} : p ∈ rowCells vx r b ↔
    ∃ col, col < 8 ∧ b.getLsbD (7 - col) = true ∧ p = (r, colAt vx col) := by
  simp only [rowCells, List.mem_map, List.mem_filter, List.mem_range]
  constructor
  · rintro ⟨col, ⟨hc, hb⟩, rfl⟩; exact ⟨col, hc, hb, rfl⟩
  · rintro ⟨col, hc, hb, rfl⟩; exact ⟨col, ⟨hc, hb⟩, rfl⟩

/-- Which cells a sprite flips (R162). -/
theorem mem_spriteCells {vx vy row : Nat} {bs : List Byte} {p : Cell} : p ∈ spriteCells vx vy row bs ↔
    ∃ k, ∃ h : k < bs.length, ∃ col, col < 8 ∧ (bs[k]).getLsbD (7 - col) = true ∧
      p = (rowAt vy (row + k), colAt vx col) := by
  induction bs generalizing row with
  | nil => simp [spriteCells]
  | cons b bs ih =>
    rw [spriteCells, List.mem_append, mem_rowCells, ih]
    constructor
    · rintro (⟨col, hc, hb, rfl⟩ | ⟨k, hk, col, hc, hb, rfl⟩)
      · exact ⟨0, by simp, col, hc, hb, rfl⟩
      · exact ⟨k + 1, by simpa using hk, col, hc, by simpa using hb, by rw [Nat.add_right_comm, Nat.add_assoc]⟩
    · rintro ⟨k, hk, col, hc, hb, rfl⟩
      cases k with
      | zero => exact .inl ⟨col, hc, hb, rfl⟩
      | succ k =>
        exact .inr ⟨k, by simpa using hk, col, hc, by simpa using hb, by rw [Nat.add_right_comm, Nat.add_assoc]⟩

theorem colAt_injective {vx a b : Nat} (ha : a < 64) (hb : b < 64) (h : colAt vx a = colAt vx b) : a = b := by
  have := congrArg Fin.val h
  simp only [colAt, Fin.ofNat] at this
  omega

theorem rowAt_injective {vy a b : Nat} (ha : a < 32) (hb : b < 32) (h : rowAt vy a = rowAt vy b) : a = b := by
  have := congrArg Fin.val h
  simp only [rowAt, Fin.ofNat] at this
  omega

theorem nodup_rowCells (vx : Nat) (r : Fin 32) (b : Byte) : (rowCells vx r b).Nodup := by
  refine List.Nodup.map_on ?_ (List.nodup_range.filter _)
  intro x hx y hy h
  have hx := (List.mem_filter.1 hx).1
  have hy := (List.mem_filter.1 hy).1
  rw [List.mem_range] at hx hy
  exact colAt_injective (by omega) (by omega) (Prod.ext_iff.1 h).2

/-- A sprite of at most 32 rows flips no cell twice: "one draw touches each display cell at most once" (R161). -/
theorem nodup_spriteCells (vx vy row : Nat) (bs : List Byte) (h : row + bs.length ≤ 32) :
    (spriteCells vx vy row bs).Nodup := by
  induction bs generalizing row with
  | nil => exact List.nodup_nil
  | cons b bs ih =>
    rw [List.length_cons] at h
    refine List.Nodup.append (nodup_rowCells _ _ _) (ih _ (by omega)) ?_
    intro p hp hq
    obtain ⟨col, -, -, rfl⟩ := mem_rowCells.1 hp
    obtain ⟨k, hk, col', -, -, hpq⟩ := mem_spriteCells.1 hq
    have := rowAt_injective (by omega) (by omega) (Prod.ext_iff.1 hpq).1
    omega

end Sys2Proof.Machine
end

