-- ==== Sys2Proof/Laws/Memory.lean ====
section
/-! SUPPORT. The laws of memory: a byte reads as last written, every other byte is left alone, and every operation keeps
the canonical form. -/

namespace Sys2Proof.Machine.Memory

@[simp] theorem read_nil (a : Nat) : read [] a = resetByte a := rfl

theorem read_cons (b : Nat) (w : Byte) (m : Memory) (a : Nat) :
    read ((b, w) :: m) a = if a = b then w else read m a := rfl

theorem wf_nil : wf [] := ⟨List.Pairwise.nil, fun _ h => absurd h List.not_mem_nil⟩

/-- Reset's memory is in canonical form. -/
theorem reset_mem_wf : State.reset.mem.wf := wf_nil

theorem wf_tail {c : Host.Cell} {m : Memory} (h : wf (c :: m)) : wf m :=
  ⟨(List.pairwise_cons.1 h.1).2, fun d hd => h.2 d (List.mem_cons_of_mem _ hd)⟩

theorem wf_head_lt {c : Host.Cell} {m : Memory} (h : wf (c :: m)) : ∀ d ∈ m, c.1 < d.1 :=
  (List.pairwise_cons.1 h.1).1

theorem wf_cons {c : Host.Cell} {m : Memory} (h : wf m) (hlt : ∀ d ∈ m, c.1 < d.1) (ha : c.1 < memSize)
    (hv : c.2 ≠ resetByte c.1) : wf (c :: m) := by
  refine ⟨List.pairwise_cons.2 ⟨hlt, h.1⟩, fun d hd => ?_⟩
  rcases List.mem_cons.1 hd with rfl | hd
  · exact ⟨ha, hv⟩
  · exact h.2 d hd

/-- An address below every entry reads as Reset left it. -/
theorem read_of_lt {m : Memory} {a : Nat} (h : ∀ d ∈ m, a < d.1) : read m a = resetByte a := by
  induction m with
  | nil => rfl
  | cons c m ih =>
    rw [read_cons, if_neg (Nat.ne_of_lt (h c List.mem_cons_self))]
    exact ih fun d hd => h d (List.mem_cons_of_mem _ hd)

/-- The entries of a memory after a write are the one written or were there before. -/
theorem mem_write {m : Memory} {a : Nat} {v : Byte} {d : Host.Cell} (h : d ∈ write m a v) :
    d.1 = a ∧ d.2 = v ∧ v ≠ resetByte a ∨ d ∈ m := by
  induction m with
  | nil =>
    simp only [write] at h
    split at h
    · exact absurd h List.not_mem_nil
    · rename_i hv
      obtain rfl := List.mem_singleton.1 h
      exact .inl ⟨rfl, rfl, hv⟩
  | cons c m ih =>
    obtain ⟨b, w⟩ := c
    simp only [write] at h
    split at h
    · split at h
      · exact .inr h
      · rename_i hv
        rcases List.mem_cons.1 h with rfl | h
        · exact .inl ⟨rfl, rfl, hv⟩
        · exact .inr h
    · split at h
      · split at h
        · exact .inr (List.mem_cons_of_mem _ h)
        · rename_i hv
          rcases List.mem_cons.1 h with rfl | h
          · exact .inl ⟨rfl, rfl, hv⟩
          · exact .inr (List.mem_cons_of_mem _ h)
      · rcases List.mem_cons.1 h with rfl | h
        · exact .inr List.mem_cons_self
        · exact (ih h).imp id (List.mem_cons_of_mem _)

/-- A write to an existing address keeps the canonical form. -/
theorem wf_write {m : Memory} {a : Nat} {v : Byte} (h : wf m) (ha : a < memSize) : wf (write m a v) := by
  induction m with
  | nil =>
    simp only [write]
    split
    · exact wf_nil
    · rename_i hv
      exact wf_cons wf_nil (by simp) ha hv
  | cons c m ih =>
    obtain ⟨b, w⟩ := c
    have hlt := wf_head_lt h
    simp only [write]
    split
    · rename_i hab
      split
      · exact h
      · rename_i hv
        refine wf_cons h (fun d hd => ?_) ha hv
        rcases List.mem_cons.1 hd with rfl | hd
        · exact hab
        · exact Nat.lt_trans hab (hlt d hd)
    · rename_i hab
      split
      · rename_i hb
        subst hb
        split
        · exact wf_tail h
        · rename_i hv
          exact wf_cons (wf_tail h) hlt ha hv
      · rename_i hne
        refine wf_cons (ih (wf_tail h)) (fun d hd => ?_) (h.2 _ List.mem_cons_self).1
          (h.2 _ List.mem_cons_self).2
        rcases mem_write hd with ⟨h1, -, -⟩ | hd
        · rw [h1]; simp only at hab ⊢; omega
        · exact hlt d hd

/-- A byte reads as last written (R63). -/
theorem read_write_same {m : Memory} (h : wf m) (a : Nat) (v : Byte) : read (write m a v) a = v := by
  induction m with
  | nil =>
    simp only [write]
    split
    · rename_i hv; rw [read_nil, hv]
    · rw [read_cons, if_pos rfl]
  | cons c m ih =>
    obtain ⟨b, w⟩ := c
    have hlt := wf_head_lt h
    simp only [write]
    split
    · rename_i hab
      split
      · rename_i hv
        rw [read_of_lt (m := (b, w) :: m), hv]
        intro d hd
        rcases List.mem_cons.1 hd with rfl | hd
        · exact hab
        · exact Nat.lt_trans hab (hlt d hd)
      · rw [read_cons, if_pos rfl]
    · split
      · rename_i hb
        subst hb
        split
        · rename_i hv
          rw [read_of_lt hlt, hv]
        · rw [read_cons, if_pos rfl]
      · rename_i hne
        rw [read_cons, if_neg hne, ih (wf_tail h)]

/-- A write leaves every other byte alone. -/
theorem read_write_other (m : Memory) {a b : Nat} (v : Byte) (hab : b ≠ a) : read (write m a v) b = read m b := by
  induction m with
  | nil =>
    simp only [write]
    split
    · rfl
    · rw [read_cons, if_neg hab]
  | cons c m ih =>
    obtain ⟨e, w⟩ := c
    simp only [write]
    split
    · split
      · rfl
      · rw [read_cons, if_neg hab]
    · split
      · rename_i he
        subst he
        split
        · rw [read_cons, if_neg hab]
        · rw [read_cons, if_neg hab, read_cons, if_neg hab]
      · rw [read_cons, read_cons, ih]

/-- What a byte reads as after a write. -/
theorem read_write {m : Memory} (h : wf m) (a b : Nat) (v : Byte) :
    read (write m a v) b = if b = a then v else read m b := by
  by_cases hab : b = a
  · subst hab; rw [read_write_same h, if_pos rfl]
  · rw [read_write_other m v hab, if_neg hab]

theorem writeList_nil (m : Memory) (a : Nat) : writeList m a [] = m := rfl

theorem writeList_cons (m : Memory) (a : Nat) (v : Byte) (vs : List Byte) :
    writeList m a (v :: vs) = writeList (write m a v) (a + 1) vs := rfl

/-- A block write to existing addresses keeps the canonical form. -/
theorem wf_writeList {m : Memory} {a : Nat} {vs : List Byte} (h : wf m) (ha : a + vs.length ≤ memSize) :
    wf (writeList m a vs) := by
  induction vs generalizing m a with
  | nil => exact h
  | cons v vs ih =>
    rw [List.length_cons] at ha
    exact ih (wf_write h (by omega)) (by omega)

/-- A block write leaves every byte outside the block alone. -/
theorem read_writeList_other (m : Memory) {a b : Nat} {vs : List Byte} (h : b < a ∨ a + vs.length ≤ b) :
    read (writeList m a vs) b = read m b := by
  induction vs generalizing m a with
  | nil => rfl
  | cons v vs ih =>
    rw [List.length_cons] at h
    rw [writeList_cons, ih _ (by omega), read_write_other _ _ (by omega)]

/-- A block write puts the k-th byte at the k-th address. -/
theorem read_writeList {m : Memory} {a k : Nat} {vs : List Byte} (h : wf m) (ha : a + vs.length ≤ memSize)
    (hk : k < vs.length) : read (writeList m a vs) (a + k) = vs[k] := by
  induction vs generalizing m a k with
  | nil => exact absurd hk (Nat.not_lt_zero _)
  | cons v vs ih =>
    rw [List.length_cons] at ha hk
    rw [writeList_cons]
    cases k with
    | zero =>
      change read (writeList (write m a v) (a + 1) vs) a = v
      rw [read_writeList_other _ (by omega), read_write_same h]
    | succ k =>
      have hkv : k < vs.length := by omega
      have := ih (m := write m a v) (a := a + 1) (k := k) (wf_write h (by omega)) (by omega) hkv
      rw [show a + (k + 1) = a + 1 + k by omega, this]
      rfl

end Sys2Proof.Machine.Memory
end

