-- ==== Sys2Proof/Laws/Ops.lean ====
section
/-! SUPPORT. One specification lemma for each shared operation: what it answers and when, so that a proof about an
instruction cites it and does not unfold the operation. -/

namespace Sys2Proof.Machine

/-! ### Raising -/

@[simp] theorem settle_ok (s : State) (i : Instr) (t : State) : settle s i (.ok t) = .next t := rfl

@[simp] theorem settle_error (s : State) (i : Instr) (k : Fault) :
    settle s i (.error k) = .next (s.takeFault k (encode i)) := rfl

/-- A rule either completes or takes its fault: it never stops the machine. -/
theorem settle_next (s : State) (i : Instr) (r : Except Fault State) : ∃ t, settle s i r = .next t := by
  cases r
  · exact ⟨_, rfl⟩
  · exact ⟨_, rfl⟩

@[simp] theorem except_map_ok {α β : Type} (f : α → β) (a : α) : (Except.ok a : Except Fault α).map f = .ok (f a) := rfl

@[simp] theorem except_map_error {α β : Type} (f : α → β) (k : Fault) :
    (Except.error k : Except Fault α).map f = .error k := rfl

/-! ### The return stack -/

/-- A push below the full depth writes the slot at SP and increments SP (R29, R112). -/
theorem push_of_lt (s : State) (w : Word) (h : s.sp.val < 16) :
    s.push w = some { s with stack := s.stack.set s.sp.val w h, sp := ⟨s.sp.val + 1, Nat.succ_lt_succ h⟩ } := by
  rw [State.push, dif_pos h]

theorem push_full (s : State) (w : Word) (h : s.sp.val = 16) : s.push w = none := by
  rw [State.push, dif_neg (by omega)]

/-- A pop above the empty depth reads the slot below SP and decrements SP (R29, R110). -/
theorem pop_of_pos (s : State) (h : 0 < s.sp.val) :
    s.pop = some (s.stack[s.sp.val - 1]'(by have := s.sp.isLt; omega),
      { s with sp := ⟨s.sp.val - 1, by have := s.sp.isLt; omega⟩ }) := by
  rw [State.pop, dif_pos h]

theorem pop_empty (s : State) (h : s.sp.val = 0) : s.pop = none := by
  rw [State.pop, dif_neg (by omega)]

/-! ### Memory accesses -/

theorem readFault_eq_none {a : Nat} : readFault a = none ↔ a < memSize := by
  rw [readFault]; split <;> simp <;> omega

theorem writeFault_eq_none {cfg : Config.Params} {a : Nat} :
    writeFault cfg a = none ↔ a < memSize ∧ (cfg.romProtect = true → programBase ≤ a) := by
  rw [writeFault]
  split
  · simp; omega
  · split <;> rename_i h
    · simp only [Bool.and_eq_true, decide_eq_true_eq] at h; simp [h.1]; omega
    · simp only [Bool.and_eq_true, decide_eq_true_eq, not_and] at h
      simp only [true_iff]
      exact ⟨by omega, fun hp => by have := h hp; omega⟩

/-- No address of a block faults exactly when the range check finds none. -/
theorem rangeFault_eq_none {f : Nat → Option Fault} {a n : Nat} :
    rangeFault f a n = none ↔ ∀ k, k < n → f (a + k) = none := by
  simp [rangeFault, List.findSome?_eq_none_iff]

/-- The range check answers the fault of the first address that has one. -/
theorem rangeFault_eq_some {f : Nat → Option Fault} {a n j : Nat} {e : Fault} (hj : j < n) (he : f (a + j) = some e)
    (h : ∀ k, k < j → f (a + k) = none) : rangeFault f a n = some e := by
  induction n with
  | zero => exact absurd hj (Nat.not_lt_zero _)
  | succ n ih =>
    rw [rangeFault, List.range_succ, List.findSome?_append]
    rcases Nat.lt_succ_iff_lt_or_eq.1 hj with hlt | rfl
    · have := ih hlt
      rw [rangeFault] at this
      rw [this]; rfl
    · have : rangeFault f a j = none := rangeFault_eq_none.2 h
      rw [rangeFault] at this
      rw [this]
      simp [he]

/-- Reading a block: its bytes, all of them existing, or a bounds error (R55, R56). -/
theorem readBlock_ok (s : State) {a n : Nat} (h : n = 0 ∨ a + n ≤ memSize) :
    s.readBlock a n = .ok ((List.range n).map fun k => s.mem.read (a + k)) := by
  have : rangeFault readFault a n = none :=
    rangeFault_eq_none.2 fun k hk => readFault_eq_none.2 (by omega)
  rw [State.readBlock, this]

theorem readBlock_error (s : State) {a n : Nat} (h : 0 < n) (ha : memSize < a + n) :
    s.readBlock a n = .error .boundsError := by
  have : rangeFault readFault a n = some .boundsError := by
    refine rangeFault_eq_some (j := if memSize ≤ a then 0 else memSize - a) ?_ ?_ ?_
    · split <;> omega
    · rw [readFault, if_pos]; split <;> omega
    · intro k hk
      refine readFault_eq_none.2 ?_
      split at hk <;> omega
  rw [State.readBlock, this]

/-- Writing a block that exists and that `ROM_PROTECT` does not forbid (R57, R58). -/
theorem writeBlock_ok (s : State) {a : Nat} {vs : List Byte} (h : a + vs.length ≤ memSize)
    (hp : s.cfg.romProtect = true → programBase ≤ a) :
    s.writeBlock a vs = .ok (s.setMem (s.mem.writeList a vs)) := by
  have : rangeFault (writeFault s.cfg) a vs.length = none :=
    rangeFault_eq_none.2 fun k hk => writeFault_eq_none.2 ⟨by omega, fun h' => by have := hp h'; omega⟩
  rw [State.writeBlock, this]

/-- A block that starts in the protected region writes nothing (R58). -/
theorem writeBlock_reserved (s : State) {a : Nat} {vs : List Byte} (h : 0 < vs.length)
    (hp : s.cfg.romProtect = true) (ha : a < programBase) : s.writeBlock a vs = .error .reservedWrite := by
  have : rangeFault (writeFault s.cfg) a vs.length = some .reservedWrite := by
    refine rangeFault_eq_some (j := 0) h ?_ fun k hk => absurd hk (Nat.not_lt_zero _)
    rw [writeFault, if_neg (by simp only [memSize, programBase] at *; omega), if_pos (by simp [hp, ha])]
  rw [State.writeBlock, this]

/-- A block that starts outside the protected region and runs past the last address writes nothing (R56). -/
theorem writeBlock_bounds (s : State) {a : Nat} {vs : List Byte} (h : memSize < a + vs.length) (h0 : 0 < vs.length)
    (hp : s.cfg.romProtect = true → programBase ≤ a) : s.writeBlock a vs = .error .boundsError := by
  have : rangeFault (writeFault s.cfg) a vs.length = some .boundsError := by
    refine rangeFault_eq_some (j := if memSize ≤ a then 0 else memSize - a) ?_ ?_ ?_
    · split <;> omega
    · rw [writeFault, if_pos]; split <;> omega
    · intro k hk
      refine writeFault_eq_none.2 ⟨?_, fun h' => by have := hp h'; omega⟩
      split at hk <;> omega
  rw [State.writeBlock, this]

/-! ### Operands -/

@[simp] theorem mem_sixteen (k : Fin 16) : k ∈ sixteen := by revert k; decide

theorem mem_regsUpTo {x r : Reg} : r ∈ regsUpTo x ↔ r ≤ x := by simp [regsUpTo]

/-- V0 to Vx, by number. -/
theorem regsUpTo_val (x : Reg) : (regsUpTo x).map Fin.val = List.range (x.val + 1) := by revert x; decide

@[simp] theorem regsUpTo_length (x : Reg) : (regsUpTo x).length = x.val + 1 := by
  rw [← List.length_map (f := Fin.val), regsUpTo_val, List.length_range]

@[simp] theorem regBlock_length (s : State) (x : Reg) : (s.regBlock x).length = x.val + 1 := by
  rw [State.regBlock, List.length_map, regsUpTo_length]

/-- The k-th of V0..Vx is Vk. -/
theorem regsUpTo_getElem {x : Reg} {k : Nat} (hk : k < (regsUpTo x).length) : ((regsUpTo x)[k]).val = k := by
  have h : ((regsUpTo x).map Fin.val)[k]'(by rw [List.length_map]; exact hk) = k := by
    simp only [regsUpTo_val, List.getElem_range]
  rwa [List.getElem_map] at h

theorem regBlock_getElem (s : State) {x r : Reg} (h : r ≤ x) :
    (s.regBlock x)[r.val]'(by rw [regBlock_length]; exact Nat.lt_succ_of_le h) = s.reg r := by
  simp only [State.regBlock, List.getElem_map]
  congr 1
  exact Fin.ext (regsUpTo_getElem _)

/-- Pairing V0..Vx with the bytes at I, I+1, ... pairs Vk with the byte at I + k. -/
theorem regsUpTo_zip (x : Reg) (g : Nat → Byte) :
    (regsUpTo x).zip ((List.range (x.val + 1)).map g) = (regsUpTo x).map fun r => (r, g r.val) := by
  rw [← regsUpTo_val, List.map_map, List.zip_map_right, List.zip_eq_zipWith, List.zipWith_self, List.map_map]
  rfl

/-- An index in its declared range is itself; one above it is none (D13). -/
theorem index16_of_lt {b : Byte} (h : b.toNat < 16) : index16 b = some ⟨b.toNat, h⟩ := by rw [index16, dif_pos h]

theorem index16_of_ge {b : Byte} (h : 15 < b.toNat) : index16 b = none := by rw [index16, dif_neg (by omega)]

/-- No key is found exactly when none is down. -/
theorem firstKey_eq_none {s : State} : s.firstKey = none ↔ ∀ k : Key, s.keys.get k = false := by
  simp [State.firstKey, List.find?_eq_none]

/-- The key found is down, and no lesser one is. -/
theorem firstKey_eq_some {s : State} {k : Key} (h : s.firstKey = some k) :
    s.keys.get k = true ∧ ∀ j, j < k → s.keys.get j = false := by
  obtain ⟨hk, as, bs, hl, has⟩ := List.find?_eq_some_iff_append.1 h
  refine ⟨hk, fun j hj => ?_⟩
  have hs : sixteen.Pairwise (· < ·) := by decide
  rw [hl, List.pairwise_append, List.pairwise_cons] at hs
  have hm : j ∈ as ++ k :: bs := hl ▸ mem_sixteen j
  rcases List.mem_append.1 hm with hja | hjk
  · simpa using has j hja
  · rcases List.mem_cons.1 hjk with rfl | hjb
    · exact absurd hj (lt_irrefl _)
    · exact absurd (hs.2.1.1 j hjb) (not_lt.2 hj.le)

end Sys2Proof.Machine
end

