-- ==== Sys2Proof/Laws/PerInstr.lean ====
section
/-! SUPPORT. Laws made instruction by instruction (LAWS.json). Family `Selected`: the opcode the encoder assembles for a
well-formed instruction selects a row of the decoder's table, and that row rebuilds the instruction with every operand. -/

namespace Sys2Proof.Laws.Selected

/-- The encoded instruction selects a row of R90's table, under the mask in force, and the row rebuilds it. -/
def Statement (i : Instr) : Prop :=
  ∀ strict, WellFormed strict i = true →
    ∃ row ∈ opcodeTable, row.selects strict (encode i) = true ∧ row.build (Fields.of (encode i)) = i

/-- A row selects a word under either mask when the word agrees with its code under the stricter of the two. -/
theorem selects_of {row : Row} {strict : Bool} {w : Word} (h : w &&& row.maskFor strict = row.code) :
    row.selects strict w = true := by
  rw [Row.selects, h, beq_self_eq_true]

/-- Formats with the selector in the top nibble alone. -/
theorem mask_op (op x y n : Nibble) : wordOfNibbles op x y n &&& 0xF000#16 = wordOfNibbles op 0 0 0 := by
  rw [and_F000_eq, Fields.of_wordOfNibbles, Fields.of_wordOfNibbles]; exact ⟨rfl, rfl⟩

/-- Formats with the selector in the top nibble and `n`. -/
theorem mask_op_n (op x y n : Nibble) : wordOfNibbles op x y n &&& 0xF00F#16 = wordOfNibbles op 0 0 n := by
  rw [and_F00F_eq, Fields.of_wordOfNibbles, Fields.of_wordOfNibbles]; exact ⟨rfl, rfl, rfl, rfl⟩

/-- Formats with the selector in the top nibble and `kk`. -/
theorem mask_op_kk (op x y n : Nibble) : wordOfNibbles op x y n &&& 0xF0FF#16 = wordOfNibbles op 0 y n := by
  rw [and_F0FF_eq, Fields.of_wordOfNibbles, Fields.of_wordOfNibbles]; exact ⟨rfl, rfl, rfl⟩

/-- The operands of format `NNN` come back (R82). -/
theorem fields_NNN (op : Nibble) (nnn : Addr12) : (Fields.of (encodeNNN op nnn)).nnn = nnn := by
  rw [encodeNNN_eq, Fields.of_wordOfNibbles]; exact nnn_nibbles nnn

/-- The operands of format `XKK` come back (R82). -/
theorem fields_XKK (op : Nibble) (x : Reg) (kk : Byte) :
    (Fields.of (encodeXKK op x kk)).rx = x ∧ (Fields.of (encodeXKK op x kk)).kk = kk := by
  rw [encodeXKK_eq, Fields.of_wordOfNibbles]; exact ⟨rfl, kk_nibbles kk⟩

/-- The operands of formats `XY` and `XYN` come back (R82). -/
theorem fields_XYN (op : Nibble) (x y : Reg) (n : Nibble) :
    (Fields.of (encodeXYN op x y n)).rx = x ∧ (Fields.of (encodeXYN op x y n)).ry = y ∧
      (Fields.of (encodeXYN op x y n)).n = n := by
  rw [encodeXYN, Fields.of_wordOfNibbles]; exact ⟨rfl, rfl, rfl⟩

theorem mask_NNN (op : Nibble) (nnn : Addr12) : encodeNNN op nnn &&& 0xF000#16 = wordOfNibbles op 0 0 0 := by
  rw [encodeNNN_eq, mask_op]

theorem mask_XKK (op : Nibble) (x : Reg) (kk : Byte) : encodeXKK op x kk &&& 0xF000#16 = wordOfNibbles op 0 0 0 := by
  rw [encodeXKK_eq, mask_op]

theorem mask_X (op : Nibble) (x : Reg) (kk : Byte) :
    encodeXKK op x kk &&& 0xF0FF#16 = wordOfNibbles op 0 (kk.extractLsb' 4 4) (kk.extractLsb' 0 4) := by
  rw [encodeXKK_eq, mask_op_kk]

theorem mask_XY (op : Nibble) (x y : Reg) (n : Nibble) : encodeXYN op x y n &&& 0xF00F#16 = wordOfNibbles op 0 0 n := by
  rw [encodeXYN, mask_op_n]

theorem mask_XYN (op : Nibble) (x y : Reg) (n : Nibble) : encodeXYN op x y n &&& 0xF000#16 = wordOfNibbles op 0 0 0 := by
  rw [encodeXYN, mask_op]

theorem cls (x : Nibble) : Statement (.cls x) := by
  intro strict h
  refine ⟨_, List.getElem_mem (l := opcodeTable) (n := 0) (by decide), selects_of ?_, ?_⟩
  · cases strict
    · exact mask_op_kk _ _ _ _
    · have hx : x = 0 := by simpa [WellFormed] using h
      subst hx; rfl
  · simp only [encode, Fields.of_wordOfNibbles]; rfl

theorem ret (x : Nibble) : Statement (.ret x) := by
  intro strict h
  refine ⟨_, List.getElem_mem (l := opcodeTable) (n := 1) (by decide), selects_of ?_, ?_⟩
  · cases strict
    · exact mask_op_kk _ _ _ _
    · have hx : x = 0 := by simpa [WellFormed] using h
      subst hx; rfl
  · simp only [encode, Fields.of_wordOfNibbles]; rfl

theorem jp (nnn : Addr12) : Statement (.jp nnn) := by
  intro strict _
  refine ⟨_, List.getElem_mem (l := opcodeTable) (n := 2) (by decide), selects_of ?_, congrArg Instr.jp (fields_NNN _ nnn)⟩
  cases strict <;> exact mask_NNN _ _

theorem call (nnn : Addr12) : Statement (.call nnn) := by
  intro strict _
  refine ⟨_, List.getElem_mem (l := opcodeTable) (n := 3) (by decide), selects_of ?_, congrArg Instr.call (fields_NNN _ nnn)⟩
  cases strict <;> exact mask_NNN _ _

theorem seByte (x : Reg) (kk : Byte) : Statement (.seByte x kk) := by
  intro strict _
  refine ⟨_, List.getElem_mem (l := opcodeTable) (n := 4) (by decide), selects_of ?_,
    congr (congrArg Instr.seByte (fields_XKK _ x kk).1) (fields_XKK _ x kk).2⟩
  cases strict <;> exact mask_XKK _ _ _

theorem sneByte (x : Reg) (kk : Byte) : Statement (.sneByte x kk) := by
  intro strict _
  refine ⟨_, List.getElem_mem (l := opcodeTable) (n := 5) (by decide), selects_of ?_,
    congr (congrArg Instr.sneByte (fields_XKK _ x kk).1) (fields_XKK _ x kk).2⟩
  cases strict <;> exact mask_XKK _ _ _

theorem seReg (x : Reg) (y : Reg) (n : Nibble) : Statement (.seReg x y n) := by
  intro strict h
  refine ⟨_, List.getElem_mem (l := opcodeTable) (n := 6) (by decide), selects_of ?_, ?_⟩
  · cases strict
    · exact mask_XYN _ _ _ _
    · have hn : n = 0 := by simpa [WellFormed] using h
      subst hn; exact mask_XY _ _ _ _
  · obtain ⟨h1, h2, h3⟩ := fields_XYN 0x5 x y n
    exact congr (congr (congrArg Instr.seReg h1) h2) h3

theorem ldByte (x : Reg) (kk : Byte) : Statement (.ldByte x kk) := by
  intro strict _
  refine ⟨_, List.getElem_mem (l := opcodeTable) (n := 7) (by decide), selects_of ?_,
    congr (congrArg Instr.ldByte (fields_XKK _ x kk).1) (fields_XKK _ x kk).2⟩
  cases strict <;> exact mask_XKK _ _ _

theorem addByte (x : Reg) (kk : Byte) : Statement (.addByte x kk) := by
  intro strict _
  refine ⟨_, List.getElem_mem (l := opcodeTable) (n := 8) (by decide), selects_of ?_,
    congr (congrArg Instr.addByte (fields_XKK _ x kk).1) (fields_XKK _ x kk).2⟩
  cases strict <;> exact mask_XKK _ _ _

theorem ldReg (x : Reg) (y : Reg) : Statement (.ldReg x y) := by
  intro strict _
  refine ⟨_, List.getElem_mem (l := opcodeTable) (n := 9) (by decide), selects_of ?_,
    congr (congrArg Instr.ldReg (fields_XYN _ x y _).1) (fields_XYN _ x y _).2.1⟩
  cases strict <;> exact mask_XY _ _ _ _

theorem orReg (x : Reg) (y : Reg) : Statement (.orReg x y) := by
  intro strict _
  refine ⟨_, List.getElem_mem (l := opcodeTable) (n := 10) (by decide), selects_of ?_,
    congr (congrArg Instr.orReg (fields_XYN _ x y _).1) (fields_XYN _ x y _).2.1⟩
  cases strict <;> exact mask_XY _ _ _ _

theorem andReg (x : Reg) (y : Reg) : Statement (.andReg x y) := by
  intro strict _
  refine ⟨_, List.getElem_mem (l := opcodeTable) (n := 11) (by decide), selects_of ?_,
    congr (congrArg Instr.andReg (fields_XYN _ x y _).1) (fields_XYN _ x y _).2.1⟩
  cases strict <;> exact mask_XY _ _ _ _

theorem xorReg (x : Reg) (y : Reg) : Statement (.xorReg x y) := by
  intro strict _
  refine ⟨_, List.getElem_mem (l := opcodeTable) (n := 12) (by decide), selects_of ?_,
    congr (congrArg Instr.xorReg (fields_XYN _ x y _).1) (fields_XYN _ x y _).2.1⟩
  cases strict <;> exact mask_XY _ _ _ _

theorem addReg (x : Reg) (y : Reg) : Statement (.addReg x y) := by
  intro strict _
  refine ⟨_, List.getElem_mem (l := opcodeTable) (n := 13) (by decide), selects_of ?_,
    congr (congrArg Instr.addReg (fields_XYN _ x y _).1) (fields_XYN _ x y _).2.1⟩
  cases strict <;> exact mask_XY _ _ _ _

theorem subReg (x : Reg) (y : Reg) : Statement (.subReg x y) := by
  intro strict _
  refine ⟨_, List.getElem_mem (l := opcodeTable) (n := 14) (by decide), selects_of ?_,
    congr (congrArg Instr.subReg (fields_XYN _ x y _).1) (fields_XYN _ x y _).2.1⟩
  cases strict <;> exact mask_XY _ _ _ _

theorem shr (x : Reg) (y : Nibble) : Statement (.shr x y) := by
  intro strict _
  refine ⟨_, List.getElem_mem (l := opcodeTable) (n := 15) (by decide), selects_of ?_, ?_⟩
  · cases strict <;> exact mask_op_n _ _ _ _
  · simp only [encode, Fields.of_wordOfNibbles]; rfl

theorem subnReg (x : Reg) (y : Reg) : Statement (.subnReg x y) := by
  intro strict _
  refine ⟨_, List.getElem_mem (l := opcodeTable) (n := 16) (by decide), selects_of ?_,
    congr (congrArg Instr.subnReg (fields_XYN _ x y _).1) (fields_XYN _ x y _).2.1⟩
  cases strict <;> exact mask_XY _ _ _ _

theorem shl (x : Reg) (y : Nibble) : Statement (.shl x y) := by
  intro strict _
  refine ⟨_, List.getElem_mem (l := opcodeTable) (n := 17) (by decide), selects_of ?_, ?_⟩
  · cases strict <;> exact mask_op_n _ _ _ _
  · simp only [encode, Fields.of_wordOfNibbles]; rfl

theorem sneReg (x : Reg) (y : Reg) (n : Nibble) : Statement (.sneReg x y n) := by
  intro strict h
  refine ⟨_, List.getElem_mem (l := opcodeTable) (n := 18) (by decide), selects_of ?_, ?_⟩
  · cases strict
    · exact mask_XYN _ _ _ _
    · have hn : n = 0 := by simpa [WellFormed] using h
      subst hn; exact mask_XY _ _ _ _
  · obtain ⟨h1, h2, h3⟩ := fields_XYN 0x9 x y n
    exact congr (congr (congrArg Instr.sneReg h1) h2) h3

theorem ldI (nnn : Addr12) : Statement (.ldI nnn) := by
  intro strict _
  refine ⟨_, List.getElem_mem (l := opcodeTable) (n := 19) (by decide), selects_of ?_, congrArg Instr.ldI (fields_NNN _ nnn)⟩
  cases strict <;> exact mask_NNN _ _

theorem jpV0 (nnn : Addr12) : Statement (.jpV0 nnn) := by
  intro strict _
  refine ⟨_, List.getElem_mem (l := opcodeTable) (n := 20) (by decide), selects_of ?_, congrArg Instr.jpV0 (fields_NNN _ nnn)⟩
  cases strict <;> exact mask_NNN _ _

theorem rnd (x : Reg) (kk : Byte) : Statement (.rnd x kk) := by
  intro strict _
  refine ⟨_, List.getElem_mem (l := opcodeTable) (n := 21) (by decide), selects_of ?_,
    congr (congrArg Instr.rnd (fields_XKK _ x kk).1) (fields_XKK _ x kk).2⟩
  cases strict <;> exact mask_XKK _ _ _

theorem drw (x : Reg) (y : Reg) (n : Nibble) : Statement (.drw x y n) := by
  intro strict _
  refine ⟨_, List.getElem_mem (l := opcodeTable) (n := 22) (by decide), selects_of ?_, ?_⟩
  · cases strict <;> exact mask_XYN _ _ _ _
  · obtain ⟨h1, h2, h3⟩ := fields_XYN 0xD x y n
    exact congr (congr (congrArg Instr.drw h1) h2) h3

theorem skp (x : Reg) : Statement (.skp x) := by
  intro strict _
  refine ⟨_, List.getElem_mem (l := opcodeTable) (n := 23) (by decide), selects_of ?_, congrArg Instr.skp (fields_XKK _ x _).1⟩
  cases strict <;> exact mask_X _ _ _

theorem sknp (x : Reg) : Statement (.sknp x) := by
  intro strict _
  refine ⟨_, List.getElem_mem (l := opcodeTable) (n := 24) (by decide), selects_of ?_, congrArg Instr.sknp (fields_XKK _ x _).1⟩
  cases strict <;> exact mask_X _ _ _

theorem ldVxDT (x : Reg) : Statement (.ldVxDT x) := by
  intro strict _
  refine ⟨_, List.getElem_mem (l := opcodeTable) (n := 25) (by decide), selects_of ?_, congrArg Instr.ldVxDT (fields_XKK _ x _).1⟩
  cases strict <;> exact mask_X _ _ _

theorem ldVxK (x : Reg) : Statement (.ldVxK x) := by
  intro strict _
  refine ⟨_, List.getElem_mem (l := opcodeTable) (n := 26) (by decide), selects_of ?_, congrArg Instr.ldVxK (fields_XKK _ x _).1⟩
  cases strict <;> exact mask_X _ _ _

theorem ldDTVx (x : Reg) : Statement (.ldDTVx x) := by
  intro strict _
  refine ⟨_, List.getElem_mem (l := opcodeTable) (n := 27) (by decide), selects_of ?_, congrArg Instr.ldDTVx (fields_XKK _ x _).1⟩
  cases strict <;> exact mask_X _ _ _

theorem ldSTVx (x : Reg) : Statement (.ldSTVx x) := by
  intro strict _
  refine ⟨_, List.getElem_mem (l := opcodeTable) (n := 28) (by decide), selects_of ?_, congrArg Instr.ldSTVx (fields_XKK _ x _).1⟩
  cases strict <;> exact mask_X _ _ _

theorem addI (x : Reg) : Statement (.addI x) := by
  intro strict _
  refine ⟨_, List.getElem_mem (l := opcodeTable) (n := 29) (by decide), selects_of ?_, congrArg Instr.addI (fields_XKK _ x _).1⟩
  cases strict <;> exact mask_X _ _ _

theorem ldF (x : Reg) : Statement (.ldF x) := by
  intro strict _
  refine ⟨_, List.getElem_mem (l := opcodeTable) (n := 30) (by decide), selects_of ?_, congrArg Instr.ldF (fields_XKK _ x _).1⟩
  cases strict <;> exact mask_X _ _ _

theorem ldB (x : Reg) : Statement (.ldB x) := by
  intro strict _
  refine ⟨_, List.getElem_mem (l := opcodeTable) (n := 31) (by decide), selects_of ?_, congrArg Instr.ldB (fields_XKK _ x _).1⟩
  cases strict <;> exact mask_X _ _ _

theorem storeRegs (x : Reg) : Statement (.storeRegs x) := by
  intro strict _
  refine ⟨_, List.getElem_mem (l := opcodeTable) (n := 32) (by decide), selects_of ?_, congrArg Instr.storeRegs (fields_XKK _ x _).1⟩
  cases strict <;> exact mask_X _ _ _

theorem loadRegs (x : Reg) : Statement (.loadRegs x) := by
  intro strict _
  refine ⟨_, List.getElem_mem (l := opcodeTable) (n := 33) (by decide), selects_of ?_, congrArg Instr.loadRegs (fields_XKK _ x _).1⟩
  cases strict <;> exact mask_X _ _ _

end Sys2Proof.Laws.Selected
end

