-- ==== Sys2Proof/Laws/Step.lean ====
section
/-! SUPPORT. What a fetch answers and what a step can do, said once (spec/10_state.md R32), so that a proof about a
step cites a case of it and does not unfold `step`. -/

namespace Sys2Proof.Machine

/-- Bit 0 of PC is its parity. -/
theorem getLsbD_zero_eq_odd (w : Word) : w.getLsbD 0 = decide (w.toNat % 2 = 1) := by
  rw [BitVec.getLsbD, Nat.testBit_zero]

/-- An odd PC is a fetch fault, whatever its size (R32, R185). -/
theorem fetch_odd (s : State) (h : s.pc.toNat % 2 = 1) : s.fetch = .error .fetchMisaligned := by
  rw [State.fetch, getLsbD_zero_eq_odd, decide_eq_true h]; rfl

/-- An even PC above 0xFFE is a bounds fault (R32, R60). -/
theorem fetch_high (s : State) (h : s.pc.toNat % 2 = 0) (hp : 0xFFE < s.pc.toNat) :
    s.fetch = .error .boundsError := by
  rw [State.fetch, getLsbD_zero_eq_odd, if_neg (by simp; omega), if_pos hp]

/-- An even PC up to 0xFFE reads the two bytes there, high byte first (R50, R60). -/
theorem fetch_even (s : State) (h : s.pc.toNat % 2 = 0) (hp : s.pc.toNat ≤ 0xFFE) : s.fetch = .ok s.opcodeAtPC := by
  rw [State.fetch, getLsbD_zero_eq_odd, if_neg (by simp; omega), if_neg (by omega)]

/-- The opcode at PC as a number: high byte first (R50). -/
theorem opcodeAtPC_toNat (s : State) :
    s.opcodeAtPC.toNat = (s.mem.read s.pc.toNat).toNat * 256 + (s.mem.read (s.pc.toNat + 1)).toNat := by
  rw [State.opcodeAtPC, opcodeOf, BitVec.toNat_append, ← Nat.shiftLeft_add_eq_or_of_lt (BitVec.isLt _),
    Nat.shiftLeft_eq]

/-- A step that is halted (R192). -/
theorem step_halted {s : State} (h : s.halt = true) : step s = .refused .halted := by rw [step, if_pos h]

/-- A running step whose fetch faults records opcode 0x0000 (R183). -/
theorem step_fetch_error {s : State} {k : Fault} (h : s.halt = false) (hf : s.fetch = .error k) :
    step s = .next (s.takeFault k 0) := by
  rw [step, h]; simp only [Bool.false_eq_true, if_false, hf]

/-- A running step whose opcode selects no instruction (R94). -/
theorem step_illegal {s : State} {w : Word} (h : s.halt = false) (hf : s.fetch = .ok w)
    (hd : decodeWord s.cfg.strictDecode w = none) : step s = .next (s.takeFault .decodeError w) := by
  rw [step, h]; simp only [Bool.false_eq_true, if_false, hf, hd]

/-- A running step that fetches and decodes an instruction executes it. -/
theorem step_decoded {s : State} {w : Word} {i : Instr} (h : s.halt = false) (hf : s.fetch = .ok w)
    (hd : decodeWord s.cfg.strictDecode w = some i) : step s = exec i s := by
  rw [step, h]; simp only [Bool.false_eq_true, if_false, hf, hd]

/-- Everything a step that answers a next state can have done: taken a fetch fault, taken a decode fault, or executed
the instruction at PC. -/
theorem step_next_cases {s t : State} (h : step s = .next t) :
    s.halt = false ∧
    ((∃ k, s.fetch = .error k ∧ t = s.takeFault k 0) ∨
     (∃ w, s.fetch = .ok w ∧ decodeWord s.cfg.strictDecode w = none ∧ t = s.takeFault .decodeError w) ∨
     (∃ w i, s.fetch = .ok w ∧ decodeWord s.cfg.strictDecode w = some i ∧ exec i s = .next t)) := by
  cases hh : s.halt with
  | true => rw [step_halted hh] at h; cases h
  | false =>
    refine ⟨rfl, ?_⟩
    match hf : s.fetch with
    | .error k =>
      rw [step_fetch_error hh hf] at h; cases h
      exact .inl ⟨k, rfl, rfl⟩
    | .ok w =>
      match hd : decodeWord s.cfg.strictDecode w with
      | none =>
        rw [step_illegal hh hf hd] at h; cases h
        exact .inr (.inl ⟨w, rfl, hd, rfl⟩)
      | some i =>
        rw [step_decoded hh hf hd] at h
        exact .inr (.inr ⟨w, i, rfl, hd, h⟩)

/-- Placing an opcode leaves a state that a fetch can read. -/
theorem placeOpcode_fetchable (s : State) (w : Word) : State.fetchable (s.placeOpcode w).pc = true := by
  simp only [State.placeOpcode]
  split
  · assumption
  · decide

end Sys2Proof.Machine
end

