-- ==== Sys2Proof/Tests/Slice0.lean ====
section
/-! SUPPORT. Smoke tests of WellFormed; words written out from spec/30_encoding.md R90 for every constructor; one-step
tests whose expected values are the vectors of spec/95_test_vectors.md (the id is in the docstring); and the witnesses:
for each obligation with hypotheses, concrete states and operands that meet them all. -/

namespace Sys2Proof.Tests

open Sys2Proof Sys2Proof.Machine

/-! ### WellFormed -/

/-- R87: under `STRICT_DECODE` each of the four checks refuses a term with a non-zero unconsulted field. -/
theorem test_wellFormed_refuses :
    WellFormed true (.cls 3) = false ∧ WellFormed true (.ret 1) = false ∧ WellFormed true (.seReg 0xA 0xB 7) = false ∧
    WellFormed true (.sneReg 0 0 1) = false := by decide

/-- R86: without it the same terms are well formed; R87 does not check the y of the shifts. -/
theorem test_wellFormed_accepts :
    WellFormed false (.cls 3) = true ∧ WellFormed false (.ret 1) = true ∧ WellFormed false (.seReg 0xA 0xB 7) = true ∧
    WellFormed false (.sneReg 0 0 1) = true ∧ WellFormed true (.shr 1 0xF) = true ∧ WellFormed true (.cls 0) = true := by
  decide

/-! ### Decoding: every row of R90, its digits and fields written out -/

theorem test_decode_flow :
    decodeWord false 0x03EE = some (.ret 3) ∧ decodeWord false 0x1A5C = some (.jp 0xA5C) ∧
    decodeWord false 0x2BCD = some (.call 0xBCD) ∧ decodeWord false 0xB0F1 = some (.jpV0 0x0F1) ∧
    decodeWord false 0x3A5C = some (.seByte 0xA 0x5C) ∧ decodeWord false 0x4A5C = some (.sneByte 0xA 0x5C) ∧
    decodeWord false 0x5AC0 = some (.seReg 0xA 0xC 0) ∧ decodeWord false 0x9AC3 = some (.sneReg 0xA 0xC 3) := by decide

theorem test_decode_load_logic :
    decodeWord false 0x6A5C = some (.ldByte 0xA 0x5C) ∧ decodeWord false 0x8AC0 = some (.ldReg 0xA 0xC) ∧
    decodeWord false 0x8AC1 = some (.orReg 0xA 0xC) ∧ decodeWord false 0x8AC2 = some (.andReg 0xA 0xC) ∧
    decodeWord false 0x8AC3 = some (.xorReg 0xA 0xC) := by decide

theorem test_decode_arith_shift :
    decodeWord false 0x7A5C = some (.addByte 0xA 0x5C) ∧ decodeWord false 0x8AC4 = some (.addReg 0xA 0xC) ∧
    decodeWord false 0x8AC5 = some (.subReg 0xA 0xC) ∧ decodeWord false 0x8AC6 = some (.shr 0xA 0xC) ∧
    decodeWord false 0x8AC7 = some (.subnReg 0xA 0xC) ∧ decodeWord false 0x8ACE = some (.shl 0xA 0xC) := by decide

theorem test_decode_index_memory :
    decodeWord false 0xA5C3 = some (.ldI 0x5C3) ∧ decodeWord false 0xFA1E = some (.addI 0xA) ∧
    decodeWord false 0xFA29 = some (.ldF 0xA) ∧ decodeWord false 0xFA33 = some (.ldB 0xA) ∧
    decodeWord false 0xFA55 = some (.storeRegs 0xA) ∧ decodeWord false 0xFA65 = some (.loadRegs 0xA) := by decide

theorem test_decode_display :
    decodeWord false 0x0AE0 = some (.cls 0xA) ∧ decodeWord true 0x0AE0 = none ∧
    decodeWord false 0xDAC5 = some (.drw 0xA 0xC 5) := by decide

theorem test_decode_keypad_timer_random :
    decodeWord false 0xEA9E = some (.skp 0xA) ∧ decodeWord false 0xEAA1 = some (.sknp 0xA) ∧
    decodeWord false 0xFA07 = some (.ldVxDT 0xA) ∧ decodeWord false 0xFA0A = some (.ldVxK 0xA) ∧
    decodeWord false 0xFA15 = some (.ldDTVx 0xA) ∧ decodeWord false 0xFA18 = some (.ldSTVx 0xA) ∧
    decodeWord false 0xCA5C = some (.rnd 0xA 0x5C) := by decide

/-- T-E2a to T-E2m: illegal words, the machine-code call among them. -/
theorem test_decode_illegal :
    ([0x0000, 0x0123, 0x00E1, 0x8008, 0x800F, 0xE09F, 0xE000, 0xF000, 0xF075, 0xF085, 0xF030, 0xF01F, 0xFFFF] :
      List Word).all (fun w => (decodeWord false w).isNone && (decodeWord true w).isNone) = true := by decide

/-- The bytes of a word, high byte first, and the table's numbering of its bits (R50). -/
theorem test_decodeTableWord :
    bytesOf 0xD125 = [0xD1, 0x25] ∧ decodeTableWord 16 0xD125 = some (.drw 1 2 5) ∧ decodeTableWord 16 0xFFFF = none := by
  decide

/-! ### One step, from the vectors of the spec -/

/-- A vector's "Before": reset, with the registers named. -/
def withRegs (rs : List (Reg × Byte)) : State := State.reset.setRegs rs

/-- A vector's step: the opcode placed at PC, then one step. -/
def runWord (w : Nat) (s : State) : Result := step (s.withFetchWord 16 w)

/-- What a next state shows; none when there is none. -/
def seen {α : Type} (r : Result) (f : State → α) : Option α :=
  match r with
  | .next t => some (f t)
  | .fault _ => none
  | .refused _ => none

/-- A vector's ERR, with HALT and PC. -/
def errOf (t : State) : Bool × Fault × Word × Word × Word := (t.halt, t.err.kind, t.err.pc, t.err.opcode, t.pc)

/-- The registers Vi = 10+i of T-M22. -/
def counted : State := { State.reset with v := Vector.ofFn fun k => BitVec.ofNat 8 (0x10 + k.val) }

/-- Key flags with some keys down. -/
def keysDown (ks : List Key) : Vector Bool 16 := Vector.ofFn fun k => decide (k ∈ ks)

/-- T-D11. -/
theorem test_cls :
    seen (runWord 0x00E0 { withRegs [(VF, 5)] with disp := (flipPixel (flipPixel blankDisplay 3 7) 31 63) })
      (fun t => (pixel t.disp 3 7, pixel t.disp 31 63, t.reg VF, t.pc)) = some (false, false, 5, 0x202) := by decide

/-- T-F15. -/
theorem test_ret :
    seen (runWord 0x00EE { State.reset with sp := 1, stack := State.reset.stack.set 0 0x200 })
      (fun t => (t.sp, t.pc, t.stack.get 0)) = some (0, 0x202, 0x200) := by decide

/-- T-F16. -/
theorem test_ret_underflow :
    seen (runWord 0x00EE State.reset) errOf = some (true, .stackUnderflow, 0x200, 0x00EE, 0x200) := by decide

/-- T-F10. -/
theorem test_jp : seen (runWord 0x1ABC State.reset) (fun t => t.pc) = some 0xABC := by decide

/-- T-F19. -/
theorem test_call :
    seen (runWord 0x2300 { State.reset with sp := 15 }) (fun t => (t.sp, t.stack.get 15, t.pc)) =
      some (16, 0x200, 0x300) := by decide

/-- T-F18. -/
theorem test_call_overflow :
    seen (runWord 0x2300 { State.reset with sp := 16 }) errOf = some (true, .stackOverflow, 0x200, 0x2300, 0x200) := by
  decide

/-- T-F1, T-F2. -/
theorem test_seByte :
    seen (runWord 0x3A00 State.reset) (fun t => t.pc) = some 0x204 ∧
    seen (runWord 0x3AFF (withRegs [(0xA, 0xFE)])) (fun t => t.pc) = some 0x202 := by decide

/-- T-F3, T-F4. -/
theorem test_sneByte :
    seen (runWord 0x4AFF (withRegs [(0xA, 0xFF)])) (fun t => t.pc) = some 0x202 ∧
    seen (runWord 0x4A00 (withRegs [(0xA, 1)])) (fun t => t.pc) = some 0x204 := by decide

/-- T-F5, T-F6, T-E2p. -/
theorem test_seReg :
    seen (runWord 0x5AB0 (withRegs [(0xA, 9), (0xB, 9)])) (fun t => t.pc) = some 0x204 ∧
    seen (runWord 0x5AB0 (withRegs [(0xA, 9), (0xB, 8)])) (fun t => t.pc) = some 0x202 ∧
    seen (runWord 0x5AB7 State.reset) (fun t => t.pc) = some 0x204 := by decide

/-- T-F8, T-F9. -/
theorem test_sneReg :
    seen (runWord 0x9AB0 (withRegs [(0xA, 9), (0xB, 9)])) (fun t => t.pc) = some 0x202 ∧
    seen (runWord 0x9AB0 (withRegs [(0xA, 9), (0xB, 8)])) (fun t => t.pc) = some 0x204 := by decide

/-- T-F14. -/
theorem test_jpV0 : seen (runWord 0xBFFF (withRegs [(0, 0xFF)])) (fun t => t.pc) = some 0x10FE := by decide

/-- T-L1. -/
theorem test_ldByte : seen (runWord 0x6F12 State.reset) (fun t => (t.reg VF, t.pc)) = some (0x12, 0x202) := by decide

/-- T-L3. -/
theorem test_ldReg :
    seen (runWord 0x8F10 (withRegs [(1, 0x44)])) (fun t => (t.reg VF, t.reg 1)) = some (0x44, 0x44) := by decide

/-- T-L5. -/
theorem test_orReg :
    seen (runWord 0x8121 (withRegs [(1, 0xF0), (2, 0x0F), (VF, 7)])) (fun t => (t.reg 1, t.reg VF)) =
      some (0xFF, 7) := by decide

/-- T-L6. -/
theorem test_andReg :
    seen (runWord 0x8122 (withRegs [(1, 0xF0), (2, 0x3C)])) (fun t => (t.reg 1, t.reg 2)) = some (0x30, 0x3C) := by
  decide

/-- T-L8. -/
theorem test_xorReg :
    seen (runWord 0x8123 (withRegs [(1, 0xF0), (2, 0x3C)])) (fun t => (t.reg 1, t.reg 2)) = some (0xCC, 0x3C) := by
  decide

/-- T-A1. -/
theorem test_addByte :
    seen (runWord 0x71FF (withRegs [(1, 1), (VF, 9)])) (fun t => (t.reg 1, t.reg VF)) = some (0, 9) := by decide

/-- T-A4, T-A6. -/
theorem test_addReg :
    seen (runWord 0x8124 (withRegs [(1, 0x80), (2, 0x80)])) (fun t => (t.reg 1, t.reg VF)) = some (0, 1) ∧
    seen (runWord 0x8124 (withRegs [(1, 0xC8), (2, 0x37)])) (fun t => (t.reg 1, t.reg VF)) = some (0xFF, 0) := by decide

/-- T-A29 (log 8). -/
theorem test_addReg_VF : seen (runWord 0x8FF4 (withRegs [(VF, 0x90)])) (fun t => t.reg VF) = some 0x20 := by decide

/-- T-A7, T-A8. -/
theorem test_subReg :
    seen (runWord 0x8125 State.reset) (fun t => (t.reg 1, t.reg VF)) = some (0, 1) ∧
    seen (runWord 0x8125 (withRegs [(2, 1)])) (fun t => (t.reg 1, t.reg VF)) = some (0xFF, 0) := by decide

/-- T-A28 (log 8). -/
theorem test_subReg_VF :
    seen (runWord 0x81F5 (withRegs [(1, 5), (VF, 1)])) (fun t => (t.reg 1, t.reg VF)) = some (4, 1) := by decide

/-- T-A11, T-A12. -/
theorem test_subnReg :
    seen (runWord 0x8127 (withRegs [(1, 1)])) (fun t => (t.reg 1, t.reg VF)) = some (0xFF, 0) ∧
    seen (runWord 0x8127 (withRegs [(2, 0xFF)])) (fun t => (t.reg 1, t.reg VF)) = some (0xFF, 1) := by decide

/-- S4, T-A15. -/
theorem test_shr :
    seen (runWord 0x8106 (withRegs [(1, 1)])) (fun t => (t.reg 1, t.reg VF)) = some (0, 1) ∧
    seen (runWord 0x8126 (withRegs [(1, 0x80), (2, 0xFF)])) (fun t => (t.reg 1, t.reg VF)) = some (0x40, 0) := by decide

/-- S3a, S3b. -/
theorem test_shl :
    seen (runWord 0x810E (withRegs [(1, 0x80)])) (fun t => (t.reg 1, t.reg VF)) = some (0, 1) ∧
    seen (runWord 0x810E (withRegs [(1, 0x7F)])) (fun t => (t.reg 1, t.reg VF)) = some (0xFE, 0) := by decide

/-- T-M1. -/
theorem test_ldI : seen (runWord 0xAFFF State.reset) (fun t => (t.i, t.pc)) = some (0xFFF, 0x202) := by decide

/-- T-M3. -/
theorem test_addI_wraps :
    seen (runWord 0xF11E { withRegs [(1, 0xFF)] with i := 0xFF01 }) (fun t => (t.i, t.reg VF)) = some (0, 0) := by decide

/-- T-M7. -/
theorem test_addI_flag :
    seen (runWord 0xFF1E { withRegs [(VF, 3)] with i := 0xFFE, cfg := { Config.default with addISetsVF := true } })
      (fun t => (t.i, t.reg VF)) = some (0x1001, 1) := by decide

/-- T-M8. -/
theorem test_ldF : seen (runWord 0xF329 (withRegs [(3, 0xF)])) (fun t => t.i) = some 0x4B := by decide

/-- T-M10. -/
theorem test_ldF_bounds :
    seen (runWord 0xF329 (withRegs [(3, 0x10)])) errOf = some (true, .boundsError, 0x200, 0xF329, 0x200) := by decide

/-- T-M13. -/
theorem test_ldB :
    seen (runWord 0xF133 { withRegs [(1, 0xC7)] with i := 0xFFD })
      (fun t => (t.mem.read 0xFFD, t.mem.read 0xFFE, t.mem.read 0xFFF, t.pc)) = some (1, 9, 9, 0x202) := by decide

/-- T-M16. -/
theorem test_ldB_reserved :
    seen (runWord 0xF133 { withRegs [(1, 0xC7)] with i := 0x1FF }) (fun t => (errOf t, t.mem.read 0x200)) =
      some ((true, .reservedWrite, 0x200, 0xF133, 0x200), 0xF1) := by decide

/-- T-M22. -/
theorem test_storeRegs :
    seen (runWord 0xFF55 { counted with i := 0xFF0 }) (fun t => (t.mem.read 0xFF0, t.mem.read 0xFFF, t.i)) =
      some (0x10, 0x1F, 0xFF0) := by decide

/-- T-M23. -/
theorem test_storeRegs_bounds :
    seen (runWord 0xFF55 { counted with i := 0xFF1 }) (fun t => (errOf t, t.mem.read 0xFF1)) =
      some ((true, .boundsError, 0x200, 0xFF55, 0x200), 0) := by decide

/-- T-M27. -/
theorem test_loadRegs :
    seen (runWord 0xF465 counted) (fun t => (t.reg 0, t.reg 1, t.reg 4, t.reg 5)) = some (0xF0, 0x90, 0xF0, 0x15) := by
  decide

/-- T-M28. -/
theorem test_loadRegs_bounds :
    seen (runWord 0xFF65 { counted with i := 0xFF1 }) (fun t => (errOf t, t.reg 0)) =
      some ((true, .boundsError, 0x200, 0xFF65, 0x200), 0x10) := by decide

/-- S7, T-D1: the fourth step, the sprite FF at column 60. -/
theorem test_drw_wraps :
    seen (runWord 0xD121 { withRegs [(1, 60)] with i := 0x300, mem := [(0x300, 0xFF)] })
      (fun t => ((List.range 64).filter fun c => pixel t.disp 0 (Fin.ofNat 64 c), t.reg VF)) =
      some ([0, 1, 2, 3, 60, 61, 62, 63], 0) := by decide

/-- T-D4: the fourth step, XOR and collision. -/
theorem test_drw_collision :
    seen (runWord 0xD011 { State.reset with
        i := 0x301, mem := [(0x301, 0x3C)],
        disp := flipPixel (flipPixel (flipPixel (flipPixel blankDisplay 0 0) 0 1) 0 2) 0 3 })
      (fun t => ((List.range 64).filter fun c => pixel t.disp 0 (Fin.ofNat 64 c), t.reg VF)) =
      some ([0, 1, 4, 5], 1) := by decide

/-- T-K1, T-K2. -/
theorem test_skp :
    seen (runWord 0xE19E { withRegs [(1, 0xF)] with keys := keysDown [15] }) (fun t => t.pc) = some 0x204 ∧
    seen (runWord 0xE19E { withRegs [(1, 0xE)] with keys := keysDown [15] }) (fun t => t.pc) = some 0x202 := by decide

/-- T-K4, T-K6. -/
theorem test_sknp :
    seen (runWord 0xE1A1 { withRegs [(1, 0xF)] with keys := keysDown [15] }) (fun t => t.pc) = some 0x202 ∧
    seen (runWord 0xE1A1 (withRegs [(1, 0xFF)])) errOf = some (true, .boundsError, 0x200, 0xE1A1, 0x200) := by decide

/-- T-K12. -/
theorem test_ldVxDT :
    seen (runWord 0xF007 { State.reset with dt := 0xFF }) (fun t => (t.reg 0, t.dt)) = some (0xFF, 0xFF) := by decide

/-- T-K7. -/
theorem test_ldVxK_waits : seen (runWord 0xF50A (withRegs [(5, 0x33)])) (fun t => (t.reg 5, t.pc)) = some (0x33, 0x200) := by
  decide

/-- T-K11. -/
theorem test_ldVxK :
    seen (runWord 0xF50A { State.reset with keys := keysDown [9, 3] }) (fun t => (t.reg 5, t.pc, t.keys.get 3)) =
      some (3, 0x202, true) := by decide

/-- T-K13. -/
theorem test_ldDTVx : seen (runWord 0xF115 { State.reset with dt := 0x42 }) (fun t => t.dt) = some 0 := by decide

/-- T-K14. -/
theorem test_ldSTVx : seen (runWord 0xFF18 (withRegs [(VF, 0xFF)])) (fun t => t.st) = some 0xFF := by decide

/-- T-K15, T-K18: the random byte given. -/
theorem test_rnd :
    seen (rndWith 0xA5 3 0xFF State.reset) (fun t => t.reg 3) = some 0xA5 ∧
    seen (rndWith 0xB7 3 0x0F State.reset) (fun t => t.reg 3) = some 7 := by decide

/-- T-K16: kk = 0 gives 0 whatever the random byte is. -/
theorem test_rnd_zero : seen (exec (.rnd 3 0) (withRegs [(3, 0x77)])) (fun t => t.reg 3) = some 0 := by
  simp [seen, exec, execRnd, rndWith, writeVx]

/-- T-F20, the faulting fetch. -/
theorem test_step_odd :
    seen (step { State.reset with pc := 0x301 }) errOf = some (true, .fetchMisaligned, 0x301, 0, 0x301) := by decide

/-- T-F22, the faulting fetch. -/
theorem test_step_high :
    seen (step { State.reset with pc := 0x10FE }) errOf = some (true, .boundsError, 0x10FE, 0, 0x10FE) := by decide

/-- T-H3, the first step. -/
theorem test_step_illegal :
    seen (step State.reset) errOf = some (true, .decodeError, 0x200, 0, 0x200) := by decide

/-- T-H3, the second step. -/
theorem test_step_halted : step { State.reset with halt := true } = .refused .halted := rfl

/-- T-H1, T-H10. -/
theorem test_host :
    (let t := ({ State.reset with dt := 1 } : State).timerTick; (t.dt, t.st)) = (0, 0) ∧
    [0, 4, 0x4B, 0x4F, 0x50, 0xFFF].map State.reset.mem.read = [0xF0, 0xF0, 0xF0, 0x80, 0, 0] := by decide

/-! ### Witnesses: the hypotheses of the obligations can be met, at boundary values -/

/-- A loaded program under way: one return address on the stack, an LD V0, byte at PC. -/
def underWay : State :=
  { State.reset with pc := 0x300, sp := 1, stack := State.reset.stack.set 0 0x200, dt := 5, mem := [(0x300, 0x60)] }

/-- The last address a fetch can read. -/
def atLastWord : State := { State.reset with pc := 0xFFE, mem := [(0xFFE, 0x6A), (0xFFF, 0x12)] }

/-- Reset, with I at a given address. -/
def baseAt (a : Word) : State := { State.reset with i := a }

/-- Parameters without the protection of the reserved region. -/
def unprotected : Config.Params := { Config.default with romProtect := false }

theorem witness_DecodeOfEncodeIsIdentity :
    WellFormed true (.cls 0) = true ∧ WellFormed true (.drw 15 0 15) = true ∧
    WellFormed false (.seReg 15 15 15) = true := by decide

theorem witness_EncodeOfDecodeIsIdentity :
    decodeWord true 0xFF65 = some (.loadRegs 15) ∧ decodeWord false 0x0FEE = some (.ret 15) := by decide

theorem witness_StepRunsDecodedInstruction :
    atLastWord.halt = false ∧ atLastWord.pc.toNat % 2 = 0 ∧ atLastWord.pc.toNat ≤ 0xFFE ∧
    (0x6A12 : Word).toNat =
      (atLastWord.mem.read atLastWord.pc.toNat).toNat * 256 + (atLastWord.mem.read (atLastWord.pc.toNat + 1)).toNat ∧
    decodeWord atLastWord.cfg.strictDecode 0x6A12 = some (.ldByte 0xA 0x12) := by decide

theorem witness_PlacedOpcodeIsStepped :
    atLastWord.mem.wf ∧ WellFormed atLastWord.cfg.strictDecode (.jp 0xFFE) = true ∧ atLastWord.halt = false ∧
    atLastWord.pc.toNat % 2 = 0 ∧ atLastWord.pc.toNat ≤ 0xFFE := by decide

theorem witness_StepRefusedExactlyWhenHalted :
    ({ State.reset with halt := true } : State).halt = true ∧ underWay.halt = false := by decide

/-- One state for each line of the order of R185, and one without a fault. -/
theorem witness_StepFaultsExactlyAsOrdered :
    underWay.halt = false ∧ faultOf underWay = none ∧
    faultOf { State.reset with pc := 0xFFFF } = some (.fetchMisaligned, 0) ∧
    faultOf { State.reset with pc := 0x1000 } = some (.boundsError, 0) ∧
    faultOf { State.reset with pc := 0xFFE } = some (.decodeError, 0) ∧
    faultOf { State.reset with mem := [(0x200, 0x23)], sp := 16 } = some (.stackOverflow, 0x2300) ∧
    faultOf { State.reset with mem := [(0x201, 0xEE)] } = some (.stackUnderflow, 0x00EE) ∧
    faultOf { State.reset with mem := [(0x200, 0xF0), (0x201, 0x55)], i := 0x1FF } =
      some (.reservedWrite, 0xF055) := by decide

/-- Each line of R182 at the first value that faults. -/
theorem witness_InstructionsFaultExactlyAsTabulated :
    ownFault (.ret 0) State.reset = some .stackUnderflow ∧
    ownFault (.call 0x300) { State.reset with sp := 16 } = some .stackOverflow ∧
    ownFault (.drw 0 0 1) (baseAt 0x1000) = some .boundsError ∧
    ownFault (.drw 0 0 15) (baseAt 0xFF2) = some .boundsError ∧
    ownFault (.skp 1) (withRegs [(1, 16)]) = some .boundsError ∧
    ownFault (.sknp 1) (withRegs [(1, 16)]) = some .boundsError ∧
    ownFault (.ldF 1) (withRegs [(1, 16)]) = some .boundsError ∧
    ownFault (.ldB 1) (baseAt 0xFFE) = some .boundsError ∧ ownFault (.ldB 1) (baseAt 0x1FF) = some .reservedWrite ∧
    ownFault (.storeRegs 15) (baseAt 0xFF1) = some .boundsError ∧
    ownFault (.storeRegs 15) (baseAt 0x1FF) = some .reservedWrite ∧
    ownFault (.loadRegs 15) (baseAt 0xFF1) = some .boundsError := by decide

/-- The last values that do not fault. -/
theorem witness_PcAfterInstruction :
    ownFault (.ret 0) underWay = none ∧ ownFault (.call 0x300) { State.reset with sp := 15 } = none ∧
    ownFault (.drw 0 0 15) (baseAt 0xFF1) = none ∧ ownFault (.drw 0 0 0) (baseAt 0xFFFF) = none ∧
    ownFault (.skp 1) (withRegs [(1, 15)]) = none ∧ ownFault (.ldB 1) (baseAt 0xFFD) = none ∧
    ownFault (.storeRegs 15) (baseAt 0x200) = none ∧ ownFault (.loadRegs 15) (baseAt 0xFF0) = none ∧
    underWay.current = some (.ldByte 0 0) := by decide

theorem witness_InstructionsWriteOnlyTheirTableEntries :
    ∃ t, ownFault (.storeRegs 15) (baseAt 0xFF0) = none ∧ exec (.storeRegs 15) (baseAt 0xFF0) = .next t :=
  ⟨_, by decide, rfl⟩

/-- Two states that differ in the timers agree on what ADD Vx, Vy reads. -/
theorem witness_OutcomeDependsOnlyOnTableReads :
    State.reset.mem.wf ∧ ({ State.reset with dt := 3, st := 9 } : State).mem.wf ∧
    (∀ p, reads (.addReg 1 2) State.reset p → p.same State.reset { State.reset with dt := 3, st := 9 }) ∧
    ownFault (.addReg 1 2) State.reset = none := by
  refine ⟨by decide, by decide, ?_, rfl⟩
  rintro p (rfl | rfl | rfl | rfl) <;> rfl

/-- The invariant at a state in the middle of a run, which steps. -/
theorem witness_StepKeepsInvariant : Inv underWay ∧ ∃ t, step underWay = .next t := by
  refine ⟨⟨by decide, fun _ a ha => ?_, by decide, by decide, by decide⟩, _, rfl⟩
  simp only [programBase] at ha
  simp only [underWay, Memory.read]
  rw [if_neg (by omega)]

theorem witness_ProtectedRegionIsNeverWritten :
    underWay.cfg.romProtect = true ∧ (∃ t, step underWay = .next t) ∧ 0 ≤ 0x1FF ∧ 0x1FF ≤ 0x1FF :=
  ⟨rfl, ⟨_, rfl⟩, by decide, by decide⟩

/-- A block that a step has halted. -/
def haltedSession : Session := { machine := { State.reset with halt := true }, mayLoad := false }

theorem witness_HaltedUntilReset :
    haltedSession.machine.halt = true ∧ haltedSession.mayLoad = false ∧
    ∀ x ∈ [Transaction.setKeys (keysDown [3]), .step, .timerTick, .readStatus], x ≠ .reset := by decide

theorem witness_WaitingStepIsIdentity :
    ({ State.reset with mem := [(0x200, 0xF5), (0x201, 0x0A)] } : State).condition = .waiting := by decide

theorem witness_EndOfRunIsAFixedPoint : AtEndOfRun { State.reset with mem := [(0x200, 0x12)] } :=
  ⟨0x200, by decide, by decide⟩

theorem witness_StoredBytesAreFetched :
    (baseAt 0xFF0).mem.wf ∧ ((baseAt 0x200).cfg.romProtect = true → 0x200 ≤ (baseAt 0x200).i.toNat) ∧
    (baseAt 0xFF0).i.toNat + (15 : Reg).val ≤ 4095 ∧ (15 : Reg).val = (14 : Reg).val + 1 ∧ (15 : Reg) ≤ 15 ∧
    ((baseAt 0xFF0).i.toNat + (14 : Reg).val) % 2 = 0 := by decide

theorem witness_MemReadChecksBounds : 4095 < 4096 ∧ 4095 ≤ 4095 := by decide

theorem witness_MemWriteChecksBoundsAndProtection :
    State.reset.mem.wf ∧ 4095 < 4096 ∧ State.reset.cfg.romProtect = true ∧ 0x1FF ≤ 0x1FF ∧ 0x1FF < 0x200 ∧
    ({ State.reset with cfg := unprotected } : State).cfg.romProtect = false := by decide

theorem witness_ReturnPopsAndAdvances :
    underWay.sp.val = (0 : Fin 16).val + 1 ∧ ({ State.reset with sp := 16 } : State).sp.val = (15 : Fin 16).val + 1 := by
  decide

theorem witness_CallPushesItsOwnAddress :
    State.reset.sp.val = (0 : Fin 16).val ∧ ({ State.reset with sp := 15 } : State).sp.val = (15 : Fin 16).val := by decide

theorem witness_CallThenReturnContinuesAfterTheCall : ({ State.reset with sp := 15 } : State).sp.val < 16 := by decide

theorem witness_SkipsOnByte : (withRegs [(3, 0x2A)]).reg 3 = 0x2A ∧ (withRegs [(3, 0x2A)]).reg 3 ≠ 0x2B := by decide

theorem witness_SkipsOnRegister :
    (withRegs [(3, 9), (4, 9)]).reg 3 = (withRegs [(3, 9), (4, 9)]).reg 4 ∧
    (withRegs [(3, 9)]).reg 3 ≠ (withRegs [(3, 9)]).reg 4 := by decide

/-- A case for each of the five instructions, VF as destination. -/
theorem witness_LoadAndLogicWriteOnlyVx (kk : Byte) (y : Reg) :
    ∀ i ∈ [Instr.ldByte VF kk, .ldReg VF y, .orReg VF y, .andReg VF y, .xorReg VF y], ∃ r : State → Byte,
      (i = .ldByte VF kk ∧ r = fun _ => kk) ∨ (i = .ldReg VF y ∧ r = fun s => s.reg y) ∨
      (i = .orReg VF y ∧ r = fun s => s.reg VF ||| s.reg y) ∨
      (i = .andReg VF y ∧ r = fun s => s.reg VF &&& s.reg y) ∨
      (i = .xorReg VF y ∧ r = fun s => s.reg VF ^^^ s.reg y) := by
  intro i hi
  simp only [List.mem_cons, List.not_mem_nil, or_false] at hi
  rcases hi with rfl | rfl | rfl | rfl | rfl
  · exact ⟨_, .inl ⟨rfl, rfl⟩⟩
  · exact ⟨_, .inr (.inl ⟨rfl, rfl⟩)⟩
  · exact ⟨_, .inr (.inr (.inl ⟨rfl, rfl⟩))⟩
  · exact ⟨_, .inr (.inr (.inr (.inl ⟨rfl, rfl⟩)))⟩
  · exact ⟨_, .inr (.inr (.inr (.inr ⟨rfl, rfl⟩)))⟩

/-- The premise of the statements on the five flag-producing instructions. -/
theorem witness_destination_other_than_VF : (0xE : Reg) ≠ VF ∧ (0 : Reg) ≠ VF := by decide

/-- A case for each of the five instructions with VF as destination. -/
theorem witness_FlagInstructionsIntoVFKeepTheResult (s : State) (y : Reg) (m : Nibble) :
    ∀ i ∈ [Instr.addReg VF y, .subReg VF y, .subnReg VF y, .shr VF m, .shl VF m], ∃ r : Int,
      (i = .addReg VF y ∧ r = ((s.reg VF).toNat : Int) + ((s.reg y).toNat : Int)) ∨
      (i = .subReg VF y ∧ r = ((s.reg VF).toNat : Int) - ((s.reg y).toNat : Int)) ∨
      (i = .subnReg VF y ∧ r = ((s.reg y).toNat : Int) - ((s.reg VF).toNat : Int)) ∨
      (i = .shr VF m ∧ r = ((s.reg VF).toNat : Int) / 2) ∨
      (i = .shl VF m ∧ r = ((s.reg VF).toNat : Int) * 2) := by
  intro i hi
  simp only [List.mem_cons, List.not_mem_nil, or_false] at hi
  rcases hi with rfl | rfl | rfl | rfl | rfl
  · exact ⟨_, .inl ⟨rfl, rfl⟩⟩
  · exact ⟨_, .inr (.inl ⟨rfl, rfl⟩)⟩
  · exact ⟨_, .inr (.inr (.inl ⟨rfl, rfl⟩))⟩
  · exact ⟨_, .inr (.inr (.inr (.inl ⟨rfl, rfl⟩)))⟩
  · exact ⟨_, .inr (.inr (.inr (.inr ⟨rfl, rfl⟩)))⟩

theorem witness_AddToAddressRegister :
    State.reset.cfg.addISetsVF = false ∧
    ({ State.reset with cfg := { Config.default with addISetsVF := true } } : State).cfg.addISetsVF = true := by decide

theorem witness_FontDigitAddress :
    ((withRegs [(3, 15)]).reg 3).toNat ≤ 15 ∧ 15 < ((withRegs [(3, 16)]).reg 3).toNat := by decide

/-- Both ends of the range of I, and the protected region without protection. -/
theorem witness_StoreBcdDigits :
    (baseAt 0xFFD).mem.wf ∧ (baseAt 0xFFD).i.toNat + 2 ≤ 4095 ∧
    ((baseAt 0x200).cfg.romProtect = true → 0x1FF < (baseAt 0x200).i.toNat) ∧
    (({ State.reset with cfg := unprotected } : State).cfg.romProtect = true → 0x1FF < State.reset.i.toNat) := by decide

theorem witness_StoreRegisterBlock :
    (baseAt 0xFF0).mem.wf ∧ (baseAt 0xFF0).i.toNat + (15 : Reg).val ≤ 4095 ∧
    ((baseAt 0xFF0).cfg.romProtect = true → 0x1FF < (baseAt 0xFF0).i.toNat) := by decide

theorem witness_LoadRegisterBlock :
    (baseAt 0xFF0).i.toNat + (15 : Reg).val ≤ 4095 ∧ (baseAt 0).i.toNat + (15 : Reg).val ≤ 4095 := by decide

theorem witness_StoreThenLoadRestoresRegisters :
    (baseAt 0x200).mem.wf ∧ (baseAt 0x200).i.toNat + (15 : Reg).val ≤ 4095 ∧
    ((baseAt 0x200).cfg.romProtect = true → 0x1FF < (baseAt 0x200).i.toNat) := by decide

/-- No row at any address, and the last block that fits. -/
theorem witness_DrawXorsTheWrappedSprite :
    ((0 : Nibble).toNat = 0 ∨ (baseAt 0xFFFF).i.toNat + (0 : Nibble).toNat ≤ 4096) ∧
    ((15 : Nibble).toNat = 0 ∨ (baseAt 0xFF1).i.toNat + (15 : Nibble).toNat ≤ 4096) := by decide

/-- A covered cell, set before the draw (so a collision), and a cell not covered. -/
theorem witness_DrawXorsTheWrappedSprite_cells :
    let s : State := { State.reset with disp := flipPixel blankDisplay 0 0 }
    SpriteCovers s 0 0 1 0 0 ∧ ¬ SpriteCovers s 0 0 1 0 4 ∧
    ∃ t, exec (.drw 0 0 1) s = .next t ∧ pixel s.disp 0 0 = true ∧ pixel t.disp 0 0 = false := by
  refine ⟨⟨0, by decide, 0, by decide, by decide, by decide, by decide⟩, ?_, _, rfl, by decide, by decide⟩
  rintro ⟨row, hr, col, hc, -, h, hb⟩
  have hr0 : row = 0 := by have : row < 1 := hr; omega
  have hc4 : col = 4 := by have : (0 + col) % 64 = 4 := h; omega
  subst hr0 hc4
  exact absurd hb (by decide)

/-- A cell the sprite covers that was unset before the first draw. -/
theorem witness_DrawingTwiceRestoresTheDisplay :
    SpriteCovers State.reset 0 0 5 0 0 ∧ pixel State.reset.disp 0 0 = false :=
  ⟨⟨0, by decide, 0, by decide, by decide, by decide, by decide⟩, by decide⟩

theorem witness_KeySkips :
    ((withRegs [(1, 15)]).reg 1).toNat = (15 : Key).val ∧ 15 < ((withRegs [(1, 16)]).reg 1).toNat ∧
    (keysDown [15]).get 15 = true ∧ State.reset.keys.get 15 = false := by decide

theorem witness_WaitForKey :
    (∀ k : Key, State.reset.keys.get k = false) ∧
    (keysDown [15]).get 15 = true ∧ (∀ j, j < (15 : Key) → (keysDown [15]).get j = false) := by decide

theorem witness_LoadProgramCopiesTheImage :
    (Session.boot Config.default).mayLoad = true ∧ (Session.boot Config.default).machine.mem.wf ∧
    1 ≤ [(0x12 : Byte)].length ∧ (List.replicate 3584 (0x60 : Byte)).length ≤ 3584 :=
  ⟨rfl, by show Memory.wf []; decide, by decide, by rw [List.length_replicate]⟩

theorem witness_LoadProgramRejections :
    ([] : List Byte).length = 0 ∧ 3584 < (List.replicate 3585 (0x60 : Byte)).length ∧ haltedSession.mayLoad = false ∧
    (Session.boot Config.default).machine.halt = false :=
  ⟨rfl, by rw [List.length_replicate]; decide, rfl, rfl⟩

theorem witness_StepReplies :
    haltedSession.machine.halt = true ∧
    (∃ t, step (Session.boot Config.default).machine = .next t ∧ t.halt = true) ∧
    (underWay.current = some (.ldByte 0 0) ∧ ∃ t, step underWay = .next t ∧ t.halt = false) :=
  ⟨rfl, ⟨_, rfl, rfl⟩, by decide, _, rfl, rfl⟩

/-- The clause with redraw = true: CLS and DRW at PC, each completing. -/
theorem witness_StepReplies_redraw :
    let c : State := { State.reset with mem := [(0x201, 0xE0)] }
    let d : State := { State.reset with mem := [(0x200, 0xD0), (0x201, 0x05)] }
    (c.current = some (.cls 0) ∧ ∃ t, step c = .next t ∧ t.halt = false) ∧
    (d.current = some (.drw 0 0 5) ∧ ∃ t, step d = .next t ∧ t.halt = false) :=
  ⟨⟨by decide, _, rfl, rfl⟩, by decide, _, rfl, rfl⟩

theorem witness_QueriesChangeNothing :
    haltedSession.machine.halt = true ∧ (Session.boot Config.default).machine.halt = false := ⟨rfl, rfl⟩

end Sys2Proof.Tests
end

section
/-! SUPPORT. The frame relation `Keeps`, one rule for each plain update of the state: a state kept outside `W` is still
kept after an update of a part that `W` names. The rules chain, so an instruction's frame is the chain of its
updates. -/

namespace Sys2Proof.Machine

theorem Part.same_refl (s : State) (p : Part) : p.same s s := by
  cases p <;> exact rfl

theorem Part.same_trans {s t u : State} {p : Part} (h : p.same s t) (h' : p.same t u) : p.same s u := by
  cases p <;> exact Eq.trans h' h

/-- A register write is seen in that register alone. -/
theorem Part.same_setReg {p : Part} {r : Reg} (t : State) (b : Byte) (hp : p ≠ .reg r) : p.same t (t.setReg r b) := by
  cases p with
  | reg q => exact (State.setReg_reg t r q b).trans (if_neg fun h => hp (congrArg Part.reg h))
  | _ => rfl

theorem Part.same_setI {p : Part} (t : State) (w : Word) (hp : p ≠ .i) : p.same t (t.setI w) := by
  cases p with
  | i => exact absurd rfl hp
  | _ => rfl

theorem Part.same_jump {p : Part} (t : State) (w : Word) (hp : p ≠ .pc) : p.same t (t.jump w) := by
  cases p with
  | pc => exact absurd rfl hp
  | _ => rfl

theorem Part.same_drawn {p : Part} (t : State) (hp : p ≠ .draws) : p.same t t.drawn := by
  cases p with
  | draws => exact absurd rfl hp
  | _ => rfl

namespace Keeps

variable {W : Part → Prop} {s t u : State}

theorem refl (W : Part → Prop) (s : State) : Keeps W s s := fun p _ => p.same_refl s

/-- A further change of a part that `W` names keeps the frame. -/
theorem change {q : Part} (h : Keeps W s t) (hq : W q) (hu : ∀ p, p ≠ q → p.same t u) : Keeps W s u :=
  fun p hp => Part.same_trans (h p hp) (hu p fun hpq => hp (hpq ▸ hq))

theorem setReg {r : Reg} (h : Keeps W s t) (hr : W (.reg r)) (b : Byte) : Keeps W s (t.setReg r b) :=
  h.change hr fun _ => Part.same_setReg t b

theorem setI (h : Keeps W s t) (hi : W .i) (w : Word) : Keeps W s (t.setI w) :=
  h.change hi fun _ => Part.same_setI t w

theorem advance (h : Keeps W s t) (hpc : W .pc) : Keeps W s t.advance :=
  h.change hpc fun _ => Part.same_jump t (t.pc + 2)

theorem drawn (h : Keeps W s t) (hd : W .draws) : Keeps W s t.drawn :=
  h.change hd fun _ => Part.same_drawn t

end Keeps

/-- The auto-advance as a number (R25). -/
theorem advance_pc_toNat (s : State) : s.advance.pc.toNat = (s.pc.toNat + 2) % 65536 := BitVec.toNat_add _ _

/-- The sum of ADD I as a number (R151). -/
theorem addToI_toNat (i : Word) (a : Byte) : (addToI i a).toNat = (i.toNat + a.toNat) % 65536 := BitVec.toNat_ofNat _ _

/-- A flag as a number (R22). -/
theorem flagByte_toNat (f : Bool) : (flagByte f).toNat = if f then 1 else 0 := by
  cases f <;> rfl

end Sys2Proof.Machine
end

section
/-! PROOFS. The instructions that read what the source leaves open: ADD I, Vx under both settings of `ADD_I_SETS_VF`
(R8, R151), and RND with a free random byte (R9, R176). -/

namespace Sys2Proof.Machine

/-- Without `ADD_I_SETS_VF` (R151). -/
theorem exec_addI_plain {s : State} (x : Reg) (h : s.cfg.addISetsVF = false) :
    exec (.addI x) s = .next (s.setI (addToI s.i (s.reg x))).advance := by
  rw [exec, execAddI, h]; rfl

/-- With `ADD_I_SETS_VF` (R151): the flag comes from the un-truncated sum of the values before the instruction. -/
theorem exec_addI_flag {s : State} (x : Reg) (h : s.cfg.addISetsVF = true) :
    exec (.addI x) s =
      .next ((s.setFlag (addIOverflows s.i (s.reg x))).setI (addToI s.i (s.reg x))).advance := by
  rw [exec, execAddI, h]; rfl

theorem exec_rnd (x : Reg) (kk : Byte) (s : State) :
    exec (.rnd x kk) s = .next (s.drawn.setReg x (Config.randByte s.draws &&& kk)).advance := rfl

end Sys2Proof.Machine

namespace Sys2Proof.Proofs
open Sys2Proof Sys2Proof.Machine

/-- Settles O39, by the setting of `ADD_I_SETS_VF`: with it one more update, of VF, precedes those of I and PC. -/
theorem addToAddressRegister : Obligations.AddToAddressRegister := by
  intro x s
  cases h : s.cfg.addISetsVF with
  | false =>
    have frame : Keeps (Among [.pc, .i]) s (s.setI (addToI s.i (s.reg x))).advance :=
      ((Keeps.refl _ s).setI (by simp [Among]) _).advance (by simp [Among])
    exact ⟨_, exec_addI_plain x h, addToI_toNat _ _, advance_pc_toNat _, fun _ => frame, (nomatch ·)⟩
  | true =>
    have frame : Keeps (Among [.pc, .i, .reg VF]) s
        ((s.setFlag (addIOverflows s.i (s.reg x))).setI (addToI s.i (s.reg x))).advance :=
      (((Keeps.refl _ s).setReg (by simp [Among]) _).setI (by simp [Among]) _).advance (by simp [Among])
    refine ⟨_, exec_addI_flag x h, addToI_toNat _ _, advance_pc_toNat _, (nomatch ·), fun _ => ⟨frame, ?_⟩⟩
    simp [flagByte_toNat, addIOverflows]

/-- Settles O51: RND is three updates, of the counter, Vx and PC, and the byte it stores is an AND whatever the random
byte is. -/
theorem randomAnd : Obligations.RandomAnd := by
  intro x kk s
  have value : (s.drawn.setReg x (Config.randByte s.draws &&& kk)).advance.reg x = Config.randByte s.draws &&& kk := by
    simp
  have frame : Keeps (Among [.pc, .reg x, .draws]) s (s.drawn.setReg x (Config.randByte s.draws &&& kk)).advance :=
    (((Keeps.refl _ s).drawn (by simp [Among])).setReg (by simp [Among]) _).advance (by simp [Among])
  refine ⟨_, exec_rnd x kk s, fun j _ => ?_, rfl, advance_pc_toNat _, frame⟩
  rw [value, BitVec.getLsbD_and]

end Sys2Proof.Proofs
end

section
/-! SUPPORT. The frame rules of the other updates of the state, beside those of `Keeps` above: jumps, the timers, the
display, the key flags, a block of memory, a list of registers and a fault. -/

namespace Sys2Proof.Machine

theorem Part.same_setDT {p : Part} (t : State) (b : Byte) (hp : p ≠ .dt) : p.same t (t.setDT b) := by
  cases p with
  | dt => exact absurd rfl hp
  | _ => rfl

theorem Part.same_setST {p : Part} (t : State) (b : Byte) (hp : p ≠ .st) : p.same t (t.setST b) := by
  cases p with
  | st => exact absurd rfl hp
  | _ => rfl

/-- A new display is seen in the pixels alone. -/
theorem Part.same_setDisp {p : Part} (t : State) (d : Display) (hp : ¬ IsPixel p) : p.same t (t.setDisp d) := by
  cases p with
  | pixel r c => exact absurd ⟨r, c, rfl⟩ hp
  | _ => rfl

/-- New key flags are seen in the key flags alone. -/
theorem Part.same_setKeys {p : Part} (t : State) (k : Vector Bool 16) (hp : ¬ IsKey p) : p.same t (t.setKeys k) := by
  cases p with
  | key j => exact absurd ⟨j, rfl⟩ hp
  | _ => rfl

/-- A stored block is seen in its own bytes alone. -/
theorem Part.same_writeList {p : Part} (t : State) {a : Nat} {vs : List Byte} (hp : ¬ InBlock a vs.length p) :
    p.same t (t.setMem (t.mem.writeList a vs)) := by
  cases p with
  | byte b =>
    refine Memory.read_writeList_other _ ?_
    by_contra h
    exact hp ⟨b - a, by omega, congrArg Part.byte (by omega)⟩
  | _ => rfl

/-- A fault is seen in HALT and ERR alone (R190). -/
theorem Part.same_takeFault {p : Part} (t : State) (k : Fault) (o : Word) (hh : p ≠ .halt) (he : p ≠ .err) :
    p.same t (t.takeFault k o) := by
  cases p with
  | halt => exact absurd rfl hh
  | err => exact absurd rfl he
  | _ => rfl

namespace Keeps

variable {W W' : Part → Prop} {s t u : State}

theorem trans (h : Keeps W s t) (h' : Keeps W t u) : Keeps W s u :=
  fun p hp => Part.same_trans (h p hp) (h' p hp)

theorem mono (h : Keeps W s t) (hW : ∀ p, W p → W' p) : Keeps W' s t := fun p hp => h p fun hp' => hp (hW p hp')

theorem jump (h : Keeps W s t) (hpc : W .pc) (w : Word) : Keeps W s (t.jump w) :=
  h.change hpc fun _ => Part.same_jump t w

theorem setDT (h : Keeps W s t) (hd : W .dt) (b : Byte) : Keeps W s (t.setDT b) :=
  h.change hd fun _ => Part.same_setDT t b

theorem setST (h : Keeps W s t) (hs : W .st) (b : Byte) : Keeps W s (t.setST b) :=
  h.change hs fun _ => Part.same_setST t b

theorem setDisp (h : Keeps W s t) (hd : ∀ p, IsPixel p → W p) (d : Display) : Keeps W s (t.setDisp d) :=
  h.trans fun _ hp => Part.same_setDisp t d fun h => hp (hd _ h)

theorem setKeys (h : Keeps W s t) (hk : ∀ p, IsKey p → W p) (k : Vector Bool 16) : Keeps W s (t.setKeys k) :=
  h.trans fun _ hp => Part.same_setKeys t k fun h => hp (hk _ h)

theorem writeList (h : Keeps W s t) {a : Nat} {vs : List Byte} (hb : ∀ p, InBlock a vs.length p → W p) :
    Keeps W s (t.setMem (t.mem.writeList a vs)) :=
  h.trans fun _ hp => Part.same_writeList t fun h => hp (hb _ h)

theorem setRegs (h : Keeps W s t) {rs : List (Reg × Byte)} (hr : ∀ p ∈ rs, W (.reg p.1)) :
    Keeps W s (t.setRegs rs) := by
  induction rs generalizing t with
  | nil => exact h
  | cons p ps ih =>
    exact ih (h.setReg (hr p List.mem_cons_self) p.2) fun q hq => hr q (List.mem_cons_of_mem _ hq)

theorem takeFault (h : Keeps W s t) (hh : W .halt) (he : W .err) (k : Fault) (o : Word) :
    Keeps W s (t.takeFault k o) :=
  h.trans fun _ hp => Part.same_takeFault t k o (fun e => hp (e ▸ hh)) fun e => hp (e ▸ he)

end Keeps

/-- PC after a skip as a number (R33). -/
theorem skip_pc_toNat (p : Word) (c : Bool) :
    (if c then p + 4 else p + 2).toNat = skipTarget p (c = true) := by
  cases c <;> exact BitVec.toNat_add _ _

theorem zext16_toNat (nnn : Addr12) : (zext16 nnn).toNat = nnn.toNat := by
  rw [zext16, BitVec.toNat_setWidth, Nat.mod_eq_of_lt (by have := nnn.isLt; omega)]

/-- The target of JP V0 is the exact sum: it fits 16 bits (R113). -/
theorem offsetTarget_toNat (nnn : Addr12) (b : Byte) : (offsetTarget nnn b).toNat = nnn.toNat + b.toNat := by
  rw [offsetTarget, BitVec.toNat_ofNat, Nat.mod_eq_of_lt (by have := nnn.isLt; have := b.isLt; omega)]

end Sys2Proof.Machine
end

section
/-! SUPPORT. What an instruction does, said once: its own fault, or its effect. `State.effect` is the meaning of an
instruction with the raise conditions taken out, and `exec_effect` and `exec_fault` tie it to `exec`; the proofs about
instructions go through these and unfold no meaning again. -/

namespace Sys2Proof.Machine

namespace State

/-- The state after a push that finds room (R29). -/
def pushed (s : State) (w : Word) : State :=
  { s with stack := s.stack.setIfInBounds s.sp.val w, sp := Fin.ofNat 17 (s.sp.val + 1) }

/-- The return address below SP (R29). -/
def topSlot (s : State) : Word := s.stack.toList.getD (s.sp.val - 1) 0

/-- The state after a pop that finds an address (R29). -/
def popped (s : State) : State := { s with sp := Fin.ofNat 17 (s.sp.val - 1) }

/-- The key flag that a register selects; one above the last is up. -/
def keyAt (s : State) (b : Byte) : Bool := s.keys.toList.getD b.toNat false

/-- The `n` bytes of memory at I (R156). -/
def bytesAtI (s : State) (n : Nat) : List Byte := (List.range n).map fun k => s.mem.read (s.base + k)

/-- The state an instruction that does not fault leaves. -/
def effect (s : State) : Instr → State
  | .cls _ => (s.setDisp blankDisplay).advance
  | .ret _ => s.popped.jump (s.topSlot + 2)
  | .jp nnn => s.jump (zext16 nnn)
  | .call nnn => (s.pushed s.pc).jump (zext16 nnn)
  | .jpV0 nnn => s.jump (offsetTarget nnn (s.reg V0))
  | .seByte x kk => s.skipIf (s.reg x == kk)
  | .sneByte x kk => s.skipIf (s.reg x != kk)
  | .seReg x y _ => s.skipIf (s.reg x == s.reg y)
  | .sneReg x y _ => s.skipIf (s.reg x != s.reg y)
  | .skp x => s.skipIf (s.keyAt (s.reg x))
  | .sknp x => s.skipIf (!s.keyAt (s.reg x))
  | .ldByte x kk => (s.setReg x kk).advance
  | .addByte x kk => (s.setReg x (Machine.addByte (s.reg x) kk)).advance
  | .ldReg x y => (s.setReg x (s.reg y)).advance
  | .orReg x y => (s.setReg x (s.reg x ||| s.reg y)).advance
  | .andReg x y => (s.setReg x (s.reg x &&& s.reg y)).advance
  | .xorReg x y => (s.setReg x (s.reg x ^^^ s.reg y)).advance
  | .addReg x y => (s.setFlagThen (carries (s.reg x) (s.reg y)) x (Machine.addByte (s.reg x) (s.reg y))).advance
  | .subReg x y => (s.setFlagThen (noBorrow (s.reg x) (s.reg y)) x (subByte (s.reg x) (s.reg y))).advance
  | .subnReg x y => (s.setFlagThen (noBorrow (s.reg y) (s.reg x)) x (subByte (s.reg y) (s.reg x))).advance
  | .shr x _ => (s.setFlagThen (bitOutRight (s.reg x)) x (shiftRight (s.reg x))).advance
  | .shl x _ => (s.setFlagThen (bitOutLeft (s.reg x)) x (shiftLeft (s.reg x))).advance
  | .ldI nnn => (s.setI (zext16 nnn)).advance
  | .addI x =>
    ((if s.cfg.addISetsVF then s.setFlag (addIOverflows s.i (s.reg x)) else s).setI (addToI s.i (s.reg x))).advance
  | .ldF x => (s.setI (BitVec.ofNat 16 (5 * (s.reg x).toNat))).advance
  | .rnd x kk => (s.drawn.setReg x (s.randomByte &&& kk)).advance
  | .drw x y n =>
    let k := drawSprite (s.reg x).toNat (s.reg y).toNat (s.bytesAtI n.toNat) s.disp
    ((s.setDisp k.disp).setFlag k.hit).advance
  | .ldVxDT x => (s.setReg x s.dt).advance
  | .ldVxK x => s.firstKey.elim s fun k => (s.setReg x (BitVec.ofNat 8 k.val)).advance
  | .ldDTVx x => (s.setDT (s.reg x)).advance
  | .ldSTVx x => (s.setST (s.reg x)).advance
  | .ldB x => (s.setMem (s.mem.writeList s.base (bcdDigits (s.reg x)))).advance
  | .storeRegs x => (s.setMem (s.mem.writeList s.base (s.regBlock x))).advance
  | .loadRegs x => (s.setRegs ((regsUpTo x).zip (s.bytesAtI (x.val + 1)))).advance

end State

/-! ### The two halves of `exec` -/

theorem push_eq (s : State) (w : Word) (h : s.sp.val < 16) : s.push w = some (s.pushed w) := by
  have hsp : (⟨s.sp.val + 1, Nat.succ_lt_succ h⟩ : Fin 17) = Fin.ofNat 17 (s.sp.val + 1) :=
    Fin.ext (Nat.mod_eq_of_lt (Nat.succ_lt_succ h)).symm
  have hst : s.stack.set s.sp.val w h = s.stack.setIfInBounds s.sp.val w := by
    ext k hk
    simp only [Vector.getElem_set, Vector.getElem_setIfInBounds]
  rw [push_of_lt s w h, hsp, hst]; rfl

theorem pop_eq (s : State) (h : 0 < s.sp.val) : s.pop = some (s.topSlot, s.popped) := by
  have hlt : s.sp.val - 1 < 17 := by have := s.sp.isLt; omega
  have hsp : (⟨s.sp.val - 1, hlt⟩ : Fin 17) = Fin.ofNat 17 (s.sp.val - 1) := Fin.ext (Nat.mod_eq_of_lt hlt).symm
  have htop : s.topSlot = s.stack[s.sp.val - 1]'(by have := s.sp.isLt; omega) := by
    have hlen : s.sp.val - 1 < s.stack.toList.length := by rw [Vector.length_toList]; have := s.sp.isLt; omega
    rw [State.topSlot, List.getD_eq_getElem _ _ hlen, Vector.getElem_toList]
  rw [pop_of_pos s h, hsp, htop]; rfl

/-- An index in its range selects its key flag (R170). -/
theorem keyAt_eq (s : State) (b : Byte) (k : Key) (h : b.toNat = k.val) : s.keyAt b = s.keys.get k := by
  rw [State.keyAt, h, List.getD_eq_getElem _ _ (by simp), Vector.getElem_toList, Vector.get_eq_getElem]

theorem bcdDigits_length (b : Byte) : (bcdDigits b).length = 3 := rfl

/-- The fault of a store of the addresses I to I + last: the two rows of R182 for the storing instructions. -/
def storeFault (s : State) (last : Nat) : Option Fault :=
  if 4095 < s.i.toNat + last then some .boundsError
  else if s.cfg.romProtect = true ∧ s.i.toNat ≤ 0x1FF then some .reservedWrite else none

theorem ownFault_ldB (x : Reg) (s : State) : ownFault (.ldB x) s = storeFault s 2 := rfl

theorem ownFault_storeRegs (x : Reg) (s : State) : ownFault (.storeRegs x) s = storeFault s x.val := rfl

/-- A store does not fault exactly when its block exists and is not protected (R57, R58). -/
theorem storeFault_eq_none {s : State} {last : Nat} : storeFault s last = none ↔
    s.base + (last + 1) ≤ memSize ∧ (s.cfg.romProtect = true → programBase ≤ s.base) := by
  simp only [storeFault, State.base, memSize, programBase]
  split
  · simp; omega
  · split
    · next hp => simp [hp.1]; omega
    · next hb hp => simpa using ⟨by omega, fun hr => not_le.1 fun hi => hp ⟨hr, hi⟩⟩

/-- A store that does not fault writes its block. -/
theorem writeBlock_of_storeFault_none {s : State} {last : Nat} {vs : List Byte} (h : storeFault s last = none)
    (hvs : vs.length = last + 1) : s.writeBlock s.base vs = .ok (s.setMem (s.mem.writeList s.base vs)) := by
  obtain ⟨hb, hp⟩ := storeFault_eq_none.1 h
  exact writeBlock_ok s (hvs ▸ hb) hp

/-- A store of at most 512 bytes that faults raises that fault: a block in the reserved region does not reach the last
address, so the two rows of R182 exclude each other. -/
theorem writeBlock_of_storeFault_some {s : State} {last : Nat} {vs : List Byte} {k : Fault}
    (h : storeFault s last = some k) (hvs : vs.length = last + 1) (hlast : last < 512) :
    s.writeBlock s.base vs = .error k := by
  simp only [storeFault] at h
  split at h
  · cases h
    exact writeBlock_bounds s (by rw [State.base, memSize]; omega) (by omega)
      (by rw [State.base, programBase]; omega)
  · split at h
    · next hp =>
      cases h
      exact writeBlock_reserved s (by omega) hp.1 (by rw [State.base, programBase]; omega)
    · cases h

/-- An instruction whose own fault condition does not hold completes with its effect (R32). -/
theorem exec_effect {i : Instr} {s : State} (h : ownFault i s = none) : exec i s = .next (s.effect i) := by
  cases i with
  | ret x =>
    have hsp : 0 < s.sp.val := by simp [ownFault] at h; omega
    rw [exec, execRet, pop_eq s hsp]; rfl
  | call nnn =>
    have hsp : s.sp.val < 16 := by simp [ownFault] at h; omega
    rw [exec, execCall, push_eq s s.pc hsp]; rfl
  | drw x y n =>
    have hn : n.toNat = 0 ∨ s.base + n.toNat ≤ memSize := by
      simp [ownFault] at h; rw [State.base, memSize]; omega
    rw [exec, execDrw, readBlock_ok s hn]; rfl
  | skp x =>
    have hx : (s.reg x).toNat < 16 := by simp [ownFault] at h; omega
    rw [exec, execSkp, index16_of_lt hx, State.effect, keyAt_eq s _ ⟨_, hx⟩ rfl]; rfl
  | sknp x =>
    have hx : (s.reg x).toNat < 16 := by simp [ownFault] at h; omega
    rw [exec, execSknp, index16_of_lt hx, State.effect, keyAt_eq s _ ⟨_, hx⟩ rfl]; rfl
  | ldF x =>
    have hx : (s.reg x).toNat < 16 := by simp [ownFault] at h; omega
    rw [exec, execLdF, index16_of_lt hx]; rfl
  | ldB x =>
    rw [ownFault_ldB] at h
    rw [exec, execLdB, writeBlock_of_storeFault_none h (bcdDigits_length _)]; rfl
  | storeRegs x =>
    rw [ownFault_storeRegs] at h
    rw [exec, execStoreRegs, writeBlock_of_storeFault_none h (regBlock_length _ _)]; rfl
  | loadRegs x =>
    have hx : s.base + (x.val + 1) ≤ memSize := by
      simp [ownFault] at h; rw [State.base, memSize]; omega
    rw [exec, execLoadRegs, readBlock_ok s (.inr hx)]; rfl
  | ldVxK x => rw [exec, execLdVxK, State.effect]; cases s.firstKey <;> rfl
  | _ => rfl

/-- An instruction whose own fault condition holds takes that fault, with its opcode in the record (R182, R190). -/
theorem exec_fault {i : Instr} {s : State} {k : Fault} (h : ownFault i s = some k) :
    exec i s = .next (s.takeFault k (encode i)) := by
  cases i with
  | ret x =>
    obtain ⟨hsp, rfl⟩ : s.sp.val = 0 ∧ .stackUnderflow = k := by simpa [ownFault] using h
    rw [exec, execRet, pop_empty s hsp]; rfl
  | call nnn =>
    obtain ⟨hsp, rfl⟩ : s.sp.val = 16 ∧ .stackOverflow = k := by simpa [ownFault] using h
    rw [exec, execCall, push_full s s.pc hsp]; rfl
  | drw x y n =>
    obtain ⟨⟨hn, hb⟩, rfl⟩ : (0 < n.toNat ∧ 4095 < s.i.toNat + n.toNat - 1) ∧ .boundsError = k := by
      simpa only [ownFault, Option.ite_none_right_eq_some, Option.some.injEq] using h
    rw [exec, execDrw, readBlock_error s hn (by rw [State.base, memSize]; omega)]; rfl
  | skp x =>
    obtain ⟨hx, rfl⟩ : 15 < (s.reg x).toNat ∧ .boundsError = k := by simpa [ownFault] using h
    rw [exec, execSkp, index16_of_ge hx]; rfl
  | sknp x =>
    obtain ⟨hx, rfl⟩ : 15 < (s.reg x).toNat ∧ .boundsError = k := by simpa [ownFault] using h
    rw [exec, execSknp, index16_of_ge hx]; rfl
  | ldF x =>
    obtain ⟨hx, rfl⟩ : 15 < (s.reg x).toNat ∧ .boundsError = k := by simpa [ownFault] using h
    rw [exec, execLdF, index16_of_ge hx]; rfl
  | ldB x =>
    rw [ownFault_ldB] at h
    rw [exec, execLdB, writeBlock_of_storeFault_some h (bcdDigits_length _) (by omega)]; rfl
  | storeRegs x =>
    rw [ownFault_storeRegs] at h
    rw [exec, execStoreRegs, writeBlock_of_storeFault_some h (regBlock_length _ _) (by omega)]; rfl
  | loadRegs x =>
    obtain ⟨hx, rfl⟩ : 4095 < s.i.toNat + x.val ∧ .boundsError = k := by simpa [ownFault] using h
    rw [exec, execLoadRegs, readBlock_error s (by omega) (by rw [State.base, memSize]; omega)]; rfl
  | _ => cases h

/-- What `exec` answers is the taken fault or the effect. -/
theorem exec_next_cases {i : Instr} {s t : State} (h : exec i s = .next t) :
    (∃ k, ownFault i s = some k ∧ t = s.takeFault k (encode i)) ∨ (ownFault i s = none ∧ t = s.effect i) := by
  cases hf : ownFault i s with
  | some k => rw [exec_fault hf] at h; cases h; exact .inl ⟨k, rfl, rfl⟩
  | none => rw [exec_effect hf] at h; cases h; exact .inr ⟨rfl, rfl⟩

end Sys2Proof.Machine
end

section
/-! SUPPORT. What an effect writes: the frame is the w entries of R35, PC is the entry of R33, and memory and the return
stack change in one way each. -/

namespace Sys2Proof.Machine

theorem effect_addI_plain {s : State} (x : Reg) (h : s.cfg.addISetsVF = false) :
    s.effect (.addI x) = (s.setI (addToI s.i (s.reg x))).advance := by
  rw [State.effect, h]; rfl

theorem effect_addI_flag {s : State} (x : Reg) (h : s.cfg.addISetsVF = true) :
    s.effect (.addI x) = ((s.setFlag (addIOverflows s.i (s.reg x))).setI (addToI s.i (s.reg x))).advance := by
  rw [State.effect, if_pos h]

/-- Wait-for-key with no key down is the one effect that leaves PC (R172). -/
theorem effect_ldVxK_none {s : State} (x : Reg) (h : s.firstKey = none) : s.effect (.ldVxK x) = s := by
  rw [State.effect, h]; rfl

theorem effect_ldVxK_some {s : State} (x : Reg) {k : Key} (h : s.firstKey = some k) :
    s.effect (.ldVxK x) = (s.setReg x (BitVec.ofNat 8 k.val)).advance := by
  rw [State.effect, h]; rfl

theorem Part.same_popped {p : Part} (t : State) (hp : p ≠ .sp) : p.same t t.popped := by
  cases p with
  | sp => exact absurd rfl hp
  | _ => rfl

/-- A push leaves every slot but the one at SP alone (R29). -/
theorem pushed_slot_of_ne {s : State} (w : Word) {k : Fin 16} (h : k.val ≠ s.sp.val) :
    (s.pushed w).stack.get k = s.stack.get k := by
  simp only [State.pushed, Vector.get_eq_getElem, Vector.getElem_setIfInBounds]
  exact if_neg h.symm

/-- A push writes the slot at SP (R29). -/
theorem pushed_slot_same {s : State} (w : Word) {k : Fin 16} (h : k.val = s.sp.val) :
    (s.pushed w).stack.get k = w := by
  simp only [State.pushed, Vector.get_eq_getElem, Vector.getElem_setIfInBounds]
  exact if_pos h.symm

/-- A push is seen in SP and in the slot at SP alone (R29). -/
theorem Part.same_pushed {p : Part} (t : State) (w : Word) (hp : p ≠ .sp) (hk : ¬ SlotAt t.sp.val p) :
    p.same t (t.pushed w) := by
  cases p with
  | sp => exact absurd rfl hp
  | slot k => exact pushed_slot_of_ne w fun h => hk ⟨k, h, rfl⟩
  | _ => rfl

theorem Keeps.popped {W : Part → Prop} {s t : State} (h : Keeps W s t) (hsp : W .sp) : Keeps W s t.popped :=
  h.change hsp fun _ => Part.same_popped t

theorem Keeps.pushed {W : Part → Prop} {s t : State} (h : Keeps W s t) (hsp : W .sp)
    (hslot : ∀ p, SlotAt t.sp.val p → W p) (w : Word) : Keeps W s (t.pushed w) :=
  h.trans fun _ hp => Part.same_pushed t w (fun e => hp (e ▸ hsp)) fun e => hp (hslot _ e)

/-- The registers that LD Vx, [I] writes are V0 to Vx (R155). -/
theorem fst_mem_regsUpTo_of_mem_zip {x : Reg} {bs : List Byte} {p : Reg × Byte} (h : p ∈ (regsUpTo x).zip bs) :
    p.1 ≤ x := mem_regsUpTo.1 (List.of_mem_zip h).1

/-- An effect changes only the w entries of R35. -/
theorem effect_keeps (i : Instr) (s : State) : Keeps (writes i s) s (s.effect i) := by
  have start := Keeps.refl (writes i s) s
  have hpc : writes i s .pc := .inl rfl
  cases i with
  | cls x => exact (start.setDisp (fun _ => .inr) _).advance hpc
  | ret x => exact (start.popped (.inr rfl)).jump hpc _
  | call nnn => exact (start.pushed (.inr (.inl rfl)) (fun _ h => .inr (.inr h)) _).jump hpc _
  | jp | jpV0 | seByte | sneByte | seReg | sneReg | skp | sknp => exact start.jump hpc _
  | ldByte | addByte | ldReg | orReg | andReg | xorReg | ldVxDT => exact (start.setReg (.inr rfl) _).advance hpc
  | addReg | subReg | subnReg | shr | shl =>
    exact ((start.setReg (.inr (.inr rfl)) _).setReg (.inr (.inl rfl)) _).advance hpc
  | ldI | ldF => exact (start.setI (.inr rfl) _).advance hpc
  | addI x =>
    cases h : s.cfg.addISetsVF with
    | false => rw [effect_addI_plain x h]; exact (start.setI (.inr (.inl rfl)) _).advance hpc
    | true =>
      rw [effect_addI_flag x h]
      exact ((start.setReg (.inr (.inr ⟨rfl, h⟩)) _).setI (.inr (.inl rfl)) _).advance hpc
  | rnd x kk => exact ((start.drawn (.inr (.inr rfl))).setReg (.inr (.inl rfl)) _).advance hpc
  | drw x y n => exact ((start.setDisp (fun _ h => .inr (.inr h)) _).setReg (.inr (.inl rfl)) _).advance hpc
  | ldVxK x =>
    cases h : s.firstKey with
    | none => rw [effect_ldVxK_none x h]; exact start
    | some k =>
      rw [effect_ldVxK_some x h]
      exact (start.setReg (.inr ⟨rfl, k, (firstKey_eq_some h).1⟩) _).advance hpc
  | ldDTVx x => exact (start.setDT (.inr rfl) _).advance hpc
  | ldSTVx x => exact (start.setST (.inr rfl) _).advance hpc
  | ldB x => exact (start.writeList fun _ => .inr).advance hpc
  | storeRegs x => exact (start.writeList fun p h => .inr (by rwa [regBlock_length] at h)).advance hpc
  | loadRegs x => exact (start.setRegs fun _ h => .inr ⟨_, fst_mem_regsUpTo_of_mem_zip h, rfl⟩).advance hpc

/-- PC after an effect is the entry of R33. -/
theorem effect_pc (i : Instr) (s : State) : (s.effect i).pc.toNat = nextPC i s := by
  cases i with
  | jp nnn | call nnn => exact zext16_toNat nnn
  | jpV0 nnn => exact offsetTarget_toNat nnn _
  | ret x => exact BitVec.toNat_add _ _
  | seByte | sneByte | seReg | sneReg | skp | sknp =>
    refine (skip_pc_toNat _ _).trans ?_
    simp [nextPC, State.keyAt]
  | ldVxK x =>
    cases h : s.firstKey with
    | none => rw [effect_ldVxK_none x h, nextPC, if_neg (by simpa using firstKey_eq_none.1 h)]
    | some k =>
      rw [effect_ldVxK_some x h, nextPC, if_pos ⟨k, (firstKey_eq_some h).1⟩]
      exact advance_pc_toNat _
  | addI x =>
    refine (advance_pc_toNat _).trans ?_
    split <;> rfl
  | loadRegs x => exact (advance_pc_toNat _).trans (by rw [State.setRegs_pc]; rfl)
  | _ => exact advance_pc_toNat _

/-- Every effect leaves HALT and ERR to the step: only a fault writes them (R30, R190). -/
theorem effect_halt (i : Instr) (s : State) : (s.effect i).halt = s.halt :=
  effect_keeps i s .halt (by cases i <;> simp [writes, IsPixel, SlotAt, InBlock, RegUpTo])

theorem effect_err (i : Instr) (s : State) : (s.effect i).err = s.err :=
  effect_keeps i s .err (by cases i <;> simp [writes, IsPixel, SlotAt, InBlock, RegUpTo])

theorem effect_cfg (i : Instr) (s : State) : (s.effect i).cfg = s.cfg :=
  effect_keeps i s .cfg (by cases i <;> simp [writes, IsPixel, SlotAt, InBlock, RegUpTo])

/-- Memory after an effect is the memory before, or that memory with a block stored that exists and that `ROM_PROTECT`
does not forbid. -/
theorem effect_mem {i : Instr} {s : State} (h : ownFault i s = none) :
    (s.effect i).mem = s.mem ∨ ∃ vs, (s.effect i).mem = s.mem.writeList s.base vs ∧
      s.base + vs.length ≤ memSize ∧ (s.cfg.romProtect = true → programBase ≤ s.base) := by
  cases i with
  | ldB x => exact .inr ⟨bcdDigits (s.reg x), rfl, storeFault_eq_none.1 h⟩
  | storeRegs x =>
    exact .inr ⟨s.regBlock x, rfl, (regBlock_length s x).symm ▸ storeFault_eq_none.1 h⟩
  | addI x => left; rw [State.effect]; split <;> rfl
  | ldVxK x => left; rw [State.effect]; cases s.firstKey <;> rfl
  | loadRegs x => left; exact State.setRegs_mem _ _
  | _ => exact .inl rfl

end Sys2Proof.Machine
end

section
/-! SUPPORT. What an instruction reads: two states that agree on the r entries of R35 agree on its fault, on PC after it
and on every part it writes. -/

namespace Sys2Proof.Machine

/-- Two states agree on what an instruction reads (R35). -/
def AgreeOnReads (i : Instr) (s t : State) : Prop := ∀ p, reads i s p → p.same s t

/-- The address RET pops is the slot below SP (R110). -/
theorem topSlot_eq_get {s : State} {k : Fin 16} (h : s.sp.val = k.val + 1) : s.topSlot = s.stack.get k := by
  have hk : s.sp.val - 1 = k.val := by omega
  rw [State.topSlot, hk, List.getD_eq_getElem _ _ (by rw [Vector.length_toList]; exact k.isLt), Vector.getElem_toList,
    Vector.get_eq_getElem]

/-- A stack that is not empty has a slot below SP. -/
theorem exists_slot_below {s : State} (h : s.sp.val ≠ 0) : ∃ k : Fin 16, s.sp.val = k.val + 1 :=
  ⟨⟨s.sp.val - 1, by have := s.sp.isLt; omega⟩, (Nat.succ_pred_eq_of_ne_zero h).symm⟩

/-- The key flags are determined by their reads. -/
theorem keys_ext {s t : State} (h : ∀ k : Key, t.keys.get k = s.keys.get k) : t.keys = s.keys := by
  ext k hk
  simpa only [Vector.get_eq_getElem] using h ⟨k, hk⟩

theorem bytesAtI_congr {s t : State} {n : Nat} (hi : t.i = s.i)
    (hb : ∀ k, k < n → t.mem.read (s.i.toNat + k) = s.mem.read (s.i.toNat + k)) : t.bytesAtI n = s.bytesAtI n := by
  refine List.map_congr_left fun k hk => ?_
  rw [State.base, hi]
  exact hb k (List.mem_range.1 hk)

theorem regBlock_congr {s t : State} {x : Reg} (h : ∀ r, r ≤ x → t.reg r = s.reg r) :
    t.regBlock x = s.regBlock x :=
  List.map_congr_left fun r hr => h r (mem_regsUpTo.1 hr)

/-- A block reads as it was stored, whatever memory held before. -/
theorem read_writeList_congr {m m' : Memory} {a k : Nat} {vs : List Byte} (hm : m.wf) (hm' : m'.wf)
    (ha : a + vs.length ≤ memSize) (hk : k < vs.length) :
    (m'.writeList a vs).read (a + k) = (m.writeList a vs).read (a + k) := by
  rw [Memory.read_writeList hm' ha hk, Memory.read_writeList hm ha hk]

/-- LD Vx, [I] brings the byte at I + r to Vr (R155). -/
theorem effect_loadRegs_reg {s : State} {x r : Reg} (h : r ≤ x) :
    (s.effect (.loadRegs x)).reg r = s.mem.read (s.base + r.val) := by
  rw [State.effect, State.advance_eq, State.jump_reg, State.bytesAtI, regsUpTo_zip, State.setRegs_reg_map,
    if_pos (mem_regsUpTo.2 h)]

variable {i : Instr} {s t : State}

theorem ownFault_congr (h : AgreeOnReads i s t) : ownFault i t = ownFault i s := by
  have hcfg : t.cfg = s.cfg := h .cfg (.inr (.inl rfl))
  cases i with
  | ret | call =>
    have hsp : t.sp = s.sp := h .sp (by simp [reads])
    simp only [ownFault, hsp]
  | skp x | sknp x | ldF x =>
    have hx : t.reg x = s.reg x := h (.reg x) (by simp [reads])
    simp only [ownFault, hx]
  | drw | ldB | storeRegs | loadRegs =>
    have hi : t.i = s.i := h .i (by simp [reads])
    simp only [ownFault, hi, hcfg]
  | _ => rfl

theorem nextPC_congr (h : AgreeOnReads i s t) (hf : ownFault i s = none) : nextPC i t = nextPC i s := by
  have hpc : t.pc = s.pc := h .pc (.inl rfl)
  cases i with
  | jp | call => rfl
  | jpV0 =>
    have hV0 : t.reg 0 = s.reg 0 := h (.reg V0) (by simp [reads])
    simp only [nextPC, hV0]
  | ret x =>
    have hsp : t.sp = s.sp := h .sp (by simp [reads])
    obtain ⟨k, hk⟩ := exists_slot_below (s := s) (by simpa [ownFault] using hf)
    have hslot : t.stack.get k = s.stack.get k := h (.slot k) (.inr (.inr (.inr ⟨k.val, hk, k, rfl, rfl⟩)))
    have htop : t.topSlot = s.topSlot := by
      rw [topSlot_eq_get hk, topSlot_eq_get (hsp ▸ hk), hslot]
    exact congrArg (fun w : Word => (w.toNat + 2) % 65536) htop
  | seByte x kk | sneByte x kk =>
    have hx : t.reg x = s.reg x := h (.reg x) (by simp [reads])
    simp only [nextPC, hpc, hx]
  | seReg x y n | sneReg x y n =>
    have hx : t.reg x = s.reg x := h (.reg x) (by simp [reads])
    have hy : t.reg y = s.reg y := h (.reg y) (by simp [reads])
    simp only [nextPC, hpc, hx, hy]
  | skp x | sknp x =>
    have hx : t.reg x = s.reg x := h (.reg x) (by simp [reads])
    have hkeys : t.keys = s.keys := keys_ext fun k => h (.key k) (by simp [reads, IsKey])
    simp only [nextPC, hpc, hx, hkeys]
  | ldVxK x =>
    have hkeys : t.keys = s.keys := keys_ext fun k => h (.key k) (by simp [reads, IsKey])
    simp only [nextPC, hpc, hkeys]
  | _ => simp only [nextPC, hpc]

/-- States that agree on what an instruction reads agree, after its effect, on every part that it writes. -/
theorem effect_congr (hs : s.mem.wf) (ht : t.mem.wf) (h : AgreeOnReads i s t) (hf : ownFault i s = none) {p : Part}
    (hp : writes i s p) : p.same (s.effect i) (t.effect i) := by
  have hpc : t.pc = s.pc := h .pc (.inl rfl)
  obtain rfl | hp := hp
  · exact BitVec.eq_of_toNat_eq (by rw [effect_pc, effect_pc, nextPC_congr h hf])
  cases i with
  | cls x => obtain ⟨r, c, rfl⟩ := hp; rfl
  | ret x =>
    obtain rfl := hp
    have hsp : t.sp = s.sp := h .sp (by simp [reads])
    exact congrArg (fun n : Fin 17 => Fin.ofNat 17 (n.val - 1)) hsp
  | call nnn =>
    have hsp : t.sp = s.sp := h .sp (by simp [reads])
    obtain rfl | ⟨k, hk, rfl⟩ := hp
    · exact congrArg (fun n : Fin 17 => Fin.ofNat 17 (n.val + 1)) hsp
    · exact (pushed_slot_same _ (hsp ▸ hk)).trans (hpc.trans (pushed_slot_same _ hk).symm)
  | jp | jpV0 | seByte | sneByte | seReg | sneReg | skp | sknp => exact hp.elim
  | ldByte x kk => obtain rfl := hp; simp [Part.same, State.effect]
  | addByte x kk =>
    obtain rfl := hp
    have hx : t.reg x = s.reg x := h (.reg x) (by simp [reads])
    simp [Part.same, State.effect, hx]
  | ldReg x y =>
    obtain rfl := hp
    have hy : t.reg y = s.reg y := h (.reg y) (by simp [reads])
    simp [Part.same, State.effect, hy]
  | orReg x y | andReg x y | xorReg x y =>
    obtain rfl := hp
    have hx : t.reg x = s.reg x := h (.reg x) (by simp [reads])
    have hy : t.reg y = s.reg y := h (.reg y) (by simp [reads])
    simp [Part.same, State.effect, hx, hy]
  | addReg x y | subReg x y | subnReg x y =>
    have hx : t.reg x = s.reg x := h (.reg x) (by simp [reads])
    have hy : t.reg y = s.reg y := h (.reg y) (by simp [reads])
    obtain rfl | rfl := hp <;> simp [Part.same, State.effect, hx, hy]
  | shr x y | shl x y =>
    have hx : t.reg x = s.reg x := h (.reg x) (by simp [reads])
    obtain rfl | rfl := hp <;> simp [Part.same, State.effect, hx]
  | ldI nnn => obtain rfl := hp; rfl
  | ldF x =>
    obtain rfl := hp
    have hx : t.reg x = s.reg x := h (.reg x) (by simp [reads])
    simp [Part.same, State.effect, hx]
  | addI x =>
    have hcfg : t.cfg = s.cfg := h .cfg (.inr (.inl rfl))
    have hi : t.i = s.i := h .i (by simp [reads])
    have hx : t.reg x = s.reg x := h (.reg x) (by simp [reads])
    obtain rfl | ⟨rfl, hflag⟩ := hp
    · simp [Part.same, State.effect, hi, hx]
    · simp [Part.same, effect_addI_flag x hflag, effect_addI_flag x (hcfg ▸ hflag), hi, hx]
  | rnd x kk =>
    have hd : t.draws = s.draws := h .draws (by simp [reads])
    obtain rfl | rfl := hp <;> simp [Part.same, State.effect, State.randomByte, hd]
  | drw x y n =>
    have hx : t.reg x = s.reg x := h (.reg x) (by simp [reads])
    have hy : t.reg y = s.reg y := h (.reg y) (by simp [reads])
    have hdisp : t.disp = s.disp := display_ext fun r c => h (.pixel r c) (by simp [reads, IsPixel])
    have hrows : t.bytesAtI n.toNat = s.bytesAtI n.toNat :=
      bytesAtI_congr (h .i (by simp [reads])) fun k hk => h (.byte (s.i.toNat + k)) (by simp [reads, InBlock, hk])
    obtain rfl | ⟨r, c, rfl⟩ := hp <;> simp [Part.same, State.effect, hx, hy, hdisp, hrows]
  | ldVxDT x =>
    obtain rfl := hp
    have hdt : t.dt = s.dt := h .dt (by simp [reads])
    simp [Part.same, State.effect, hdt]
  | ldVxK x =>
    obtain ⟨rfl, k, hk⟩ := hp
    have hkeys : t.keys = s.keys := keys_ext fun k => h (.key k) (by simp [reads, IsKey])
    have hfirst : t.firstKey = s.firstKey := by rw [State.firstKey, State.firstKey, hkeys]
    cases hs : s.firstKey with
    | none => simp [firstKey_eq_none.1 hs k] at hk
    | some j => simp [Part.same, effect_ldVxK_some x hs, effect_ldVxK_some x (hfirst.trans hs)]
  | ldDTVx x | ldSTVx x => obtain rfl := hp; exact h (.reg x) (by simp [reads])
  | ldB x =>
    have hi : t.i = s.i := h .i (by simp [reads])
    have hx : t.reg x = s.reg x := h (.reg x) (by simp [reads])
    obtain ⟨k, hk, rfl⟩ := hp
    simp only [Part.same, State.effect, State.advance_eq, State.jump_mem, State.setMem_mem, State.base, hi, hx]
    exact read_writeList_congr hs ht (storeFault_eq_none.1 hf).1 hk
  | storeRegs x =>
    have hi : t.i = s.i := h .i (by simp [reads])
    have hv : t.regBlock x = s.regBlock x := regBlock_congr fun r hr => h (.reg r) (by simp [reads, RegUpTo, hr])
    obtain ⟨k, hk, rfl⟩ := hp
    simp only [Part.same, State.effect, State.advance_eq, State.jump_mem, State.setMem_mem, State.base, hi, hv]
    exact read_writeList_congr hs ht (regBlock_length s x ▸ (storeFault_eq_none.1 hf).1) (regBlock_length s x ▸ hk)
  | loadRegs x =>
    have hi : t.i = s.i := h .i (by simp [reads])
    obtain ⟨r, hr, rfl⟩ := hp
    simp only [Part.same, effect_loadRegs_reg hr, State.base, hi]
    exact h (.byte (s.i.toNat + r.val)) (by simp [reads, InBlock]; omega)

end Sys2Proof.Machine
end

section
/-! PROOFS. The access table R35, both entries, and the PC table R33, from the effect of an instruction. -/

namespace Sys2Proof.Machine

/-- The step of a block that has an instruction to execute is that instruction (R32). -/
theorem step_of_current {s : State} {i : Instr} (h : s.current = some i) : step s = exec i s := by
  cases hh : s.halt with
  | true => rw [State.current, if_pos hh] at h; cases h
  | false =>
    rw [State.current, hh] at h
    match hf : s.fetch with
    | .error k => simp [hf] at h
    | .ok w => exact step_decoded hh hf (by simpa [hf] using h)

end Sys2Proof.Machine

namespace Sys2Proof.Proofs
open Sys2Proof Sys2Proof.Machine

/-- Settles O14: an instruction that does not fault leaves its effect, whose frame is the w entries. -/
theorem instructionsWriteOnlyTheirTableEntries : Obligations.InstructionsWriteOnlyTheirTableEntries := by
  intro i s t hf ht
  obtain rfl : s.effect i = t := by simpa [exec_effect hf] using ht
  exact effect_keeps i s

/-- Settles O15: agreement on the r entries carries over to the fault condition, and through the effect to every part
written. -/
theorem outcomeDependsOnlyOnTableReads : Obligations.OutcomeDependsOnlyOnTableReads := by
  intro i s₁ s₂ hwf₁ hwf₂ hreads
  have hfault : ownFault i s₂ = ownFault i s₁ := ownFault_congr hreads
  exact ⟨hfault, fun hf => ⟨_, _, exec_effect hf, exec_effect (hfault.trans hf),
    fun _ => effect_congr hwf₁ hwf₂ hreads hf⟩⟩

/-- Settles O13: PC after the effect is the entry of R33, and a step is the instruction at PC. -/
theorem pcAfterInstruction : Obligations.PcAfterInstruction :=
  fun i s hf => ⟨_, exec_effect hf, effect_pc i s, fun hc => (step_of_current hc).trans (exec_effect hf)⟩

end Sys2Proof.Proofs
end

section
/-! SUPPORT. The invariant `Inv` under a fault, a stored block, an effect and a step (R37). -/

namespace Sys2Proof.Machine

/-- A fetch that answers an opcode read it at an even PC up to 0xFFE (R60). -/
theorem fetch_eq_ok {s : State} {w : Word} (h : s.fetch = .ok w) :
    s.pc.toNat % 2 = 0 ∧ s.pc.toNat ≤ 0xFFE ∧ w = s.opcodeAtPC := by
  by_cases hodd : s.pc.toNat % 2 = 1
  · rw [fetch_odd s hodd] at h; cases h
  by_cases hhigh : 0xFFE < s.pc.toNat
  · rw [fetch_high s (by omega) hhigh] at h; cases h
  rw [fetch_even s (by omega) (by omega)] at h
  exact ⟨by omega, by omega, (Except.ok.inj h).symm⟩

/-- Right after Reset, under any parameters and whatever random bytes have been used (R36, R210). -/
theorem inv_reset (cfg : Config.Params) (draws : Nat) : Inv { State.reset with cfg := cfg, draws := draws } where
  memWf := Memory.wf_nil
  romKept := fun _ _ _ => rfl
  pcBound := by simp [State.reset]
  returnAddresses := fun _ hk => absurd hk (Nat.not_lt_zero _)
  errAtPC := fun h => Bool.noConfusion h

/-- PC after an instruction is at most 0x10FE, the largest target of JP V0 (R25, R37). -/
theorem nextPC_le {i : Instr} {s : State} (h : Inv s) (hpc : s.pc.toNat ≤ 0xFFE) (hf : ownFault i s = none) :
    nextPC i s ≤ 0x10FE := by
  cases i with
  | jp nnn | call nnn => have := nnn.isLt; simp only [nextPC]; omega
  | jpV0 nnn => have := nnn.isLt; have := (s.reg 0).isLt; simp only [nextPC]; omega
  | ret x =>
    obtain ⟨k, hk⟩ := exists_slot_below (s := s) (by simpa [ownFault] using hf)
    have hslot := (h.returnAddresses k (by omega)).1
    rw [← topSlot_eq_get hk, State.topSlot] at hslot
    simp only [nextPC]
    omega
  | seByte | sneByte | seReg | sneReg | skp | sknp => simp only [nextPC, skipTarget]; split <;> omega
  | ldVxK => simp only [nextPC]; split <;> omega
  | _ => simp only [nextPC]; omega

/-- Of the effects only a call writes a stack slot, and no other makes the stack deeper (R29, R35). -/
theorem effect_stack {i : Instr} {s : State} (hi : ∀ nnn, i ≠ .call nnn) :
    (s.effect i).sp.val ≤ s.sp.val ∧ ∀ k, (s.effect i).stack.get k = s.stack.get k := by
  constructor
  · cases i with
    | call nnn => exact absurd rfl (hi nnn)
    | ret x => exact (Nat.mod_le _ _).trans (Nat.sub_le _ _)
    | _ =>
      refine le_of_eq (congrArg Fin.val (effect_keeps _ s .sp ?_))
      simp [writes, IsPixel, InBlock, RegUpTo]
  · intro k
    refine effect_keeps i s (.slot k) ?_
    cases i with
    | call nnn => exact absurd rfl (hi nnn)
    | _ => simp [writes, IsPixel, InBlock, RegUpTo]

namespace Inv

variable {s : State}

/-- A fault records the PC the block stops at and leaves the rest alone (R190). -/
theorem takeFault (h : Inv s) (k : Fault) (o : Word) : Inv (s.takeFault k o) where
  memWf := h.memWf
  romKept := h.romKept
  pcBound := h.pcBound
  returnAddresses := h.returnAddresses
  errAtPC := fun _ => rfl

/-- Storing a block that exists, outside the reserved region when that is protected. -/
theorem writeList (h : Inv s) {a : Nat} {vs : List Byte} (ha : a + vs.length ≤ memSize)
    (hp : s.cfg.romProtect = true → programBase ≤ a) : Inv (s.setMem (s.mem.writeList a vs)) where
  memWf := Memory.wf_writeList h.memWf ha
  romKept := fun hr b hb =>
    (Memory.read_writeList_other _ (.inl (hb.trans_le (hp hr)))).trans (h.romKept hr b hb)
  pcBound := h.pcBound
  returnAddresses := h.returnAddresses
  errAtPC := h.errAtPC

/-- The effect of an instruction at an address that a fetch can read: a call pushes that address, which is a legal
return address. -/
theorem effect {i : Instr} (h : Inv s) (hrun : s.halt = false) (heven : s.pc.toNat % 2 = 0)
    (hpc : s.pc.toNat ≤ 0xFFE) (hf : ownFault i s = none) : Inv (s.effect i) where
  memWf := by
    obtain hm | ⟨vs, hm, hb, hp⟩ := effect_mem hf
    · exact hm ▸ h.memWf
    · exact hm ▸ (h.writeList hb hp).memWf
  romKept := by
    rw [effect_cfg]
    obtain hm | ⟨vs, hm, hb, hp⟩ := effect_mem hf
    · exact hm ▸ h.romKept
    · exact hm ▸ (h.writeList hb hp).romKept
  pcBound := (effect_pc i s).trans_le (nextPC_le h hpc hf)
  returnAddresses := by
    by_cases hi : ∀ nnn, i ≠ .call nnn
    · obtain ⟨hsp, hstack⟩ := effect_stack (s := s) hi
      exact fun k hk => hstack k ▸ h.returnAddresses k (hk.trans_le hsp)
    · simp only [ne_eq, not_forall, not_not] at hi
      obtain ⟨nnn, rfl⟩ := hi
      intro k hk
      by_cases hks : k.val = s.sp.val
      · have hslot : (s.effect (.call nnn)).stack.get k = s.pc := pushed_slot_same _ hks
        rw [hslot]
        exact ⟨hpc, heven⟩
      · have hslot : (s.effect (.call nnn)).stack.get k = s.stack.get k := pushed_slot_of_ne _ hks
        have hk' : k.val < (s.sp.val + 1) % 17 := hk
        rw [hslot]
        exact h.returnAddresses k (by omega)
  errAtPC := fun hh => by rw [effect_halt, hrun] at hh; cases hh

/-- Every step keeps the invariant: by what a step can do (`step_next_cases`). -/
theorem step {t : State} (h : Inv s) (hst : Machine.step s = .next t) : Inv t := by
  obtain ⟨hrun, ⟨k, -, rfl⟩ | ⟨w, -, -, rfl⟩ | ⟨w, i, hfetch, -, hexec⟩⟩ := step_next_cases hst
  · exact h.takeFault k 0
  · exact h.takeFault _ w
  · obtain ⟨heven, hpc, -⟩ := fetch_eq_ok hfetch
    obtain ⟨k, -, rfl⟩ | ⟨hf, rfl⟩ := exec_next_cases hexec
    · exact h.takeFault k _
    · exact h.effect hrun heven hpc hf

end Inv

/-- What a Step transaction does to the session: nothing, or the state that `step` answers and the end of loading. -/
theorem apply_step_cases (p : Session) :
    (p.apply .step).1 = p ∨
      ∃ t, step p.machine = .next t ∧ (p.apply .step).1 = { machine := t, mayLoad := false } := by
  match h : step p.machine with
  | .next t => exact .inr ⟨t, rfl, by simp only [Session.apply, h]⟩
  | .fault _ => exact .inl (by simp only [Session.apply, h])
  | .refused _ => exact .inl (by simp only [Session.apply, h])

/-- What a LoadProgram transaction does to the session: nothing, or the copy of an image that fits (R212). -/
theorem apply_loadProgram_cases (p : Session) (image : List Byte) :
    (p.apply (.loadProgram image)).1 = p ∨ p.mayLoad = true ∧ image.length ≤ maxImage ∧
      (p.apply (.loadProgram image)).1 = { p with machine := p.machine.loadImage image } := by
  rw [Session.apply]
  split
  · exact .inl rfl
  · next hl =>
    split
    · next hfit =>
      obtain ⟨-, hlen⟩ : 1 ≤ image.length ∧ image.length ≤ maxImage := by simpa [imageFits] using hfit
      exact .inr ⟨by simpa using hl, hlen, rfl⟩
    · exact .inl rfl

/-- Every transaction keeps the invariant. -/
theorem Inv.apply {p : Session} (h : Inv p.machine) (x : Transaction) : Inv (p.apply x).1.machine := by
  cases x with
  | reset => exact inv_reset p.machine.cfg p.machine.draws
  | loadProgram image =>
    obtain hp | ⟨-, hlen, hp⟩ := apply_loadProgram_cases p image
    · rw [hp]; exact h
    · rw [hp]
      exact h.writeList (by simp only [programBase, memSize, maxImage] at *; omega) fun _ => le_rfl
  | step =>
    obtain hp | ⟨t, hst, hp⟩ := apply_step_cases p
    · rw [hp]; exact h
    · exact hp ▸ h.step hst
  | setKeys _ | timerTick => exact ⟨h.memWf, h.romKept, h.pcBound, h.returnAddresses, h.errAtPC⟩
  | readDisplay | readStatus => exact h

/-- Every history of transactions keeps the invariant. -/
theorem Inv.run {p : Session} (h : Inv p.machine) (ts : List Transaction) : Inv (p.run ts).machine := by
  induction ts generalizing p with
  | nil => exact h
  | cons x ts ih => exact ih (h.apply x)

end Sys2Proof.Machine

namespace Sys2Proof.Proofs
open Sys2Proof Sys2Proof.Machine

/-- Settles O16, at the default parameters. -/
theorem resetMeetsInvariant : Obligations.ResetMeetsInvariant := inv_reset Config.default 0

/-- Settles O17, by what a step can do: a fault, or the effect of the instruction at PC. -/
theorem stepKeepsInvariant : Obligations.StepKeepsInvariant := fun _ _ h hst => h.step hst

/-- Settles O18, by induction on the history: a constructed block is right after Reset, and each transaction keeps the
invariant. -/
theorem everyHistoryKeepsInvariant : Obligations.EveryHistoryKeepsInvariant := fun cfg ts => (inv_reset cfg 0).run ts

end Sys2Proof.Proofs
end

section
/-! SUPPORT. The decoder and the encoder undo each other (R88, R90), row by row of the table: a selected word is the
encoding of what its row builds, and no word selects two rows. -/

namespace Sys2Proof

/-- A word is assembled from its top nibble and `nnn` (R81, R82). -/
theorem encodeNNN_of (w : Word) : encodeNNN (Fields.of w).op (Fields.of w).nnn = w := by
  apply BitVec.eq_of_toNat_eq
  rw [encodeNNN, append_toNat]
  simp only [Fields.of, BitVec.extractLsb'_toNat, Nat.shiftRight_eq_div_pow]
  have := w.isLt
  omega

/-- A word is assembled from its top nibble, `x` and `kk` (R81, R82). -/
theorem encodeXKK_of (w : Word) : encodeXKK (Fields.of w).op (Fields.of w).rx (Fields.of w).kk = w := by
  apply BitVec.eq_of_toNat_eq
  rw [encodeXKK, append_toNat, append_toNat, Fields.rx, nibbleOf_regOf]
  simp only [Fields.of, BitVec.extractLsb'_toNat, Nat.shiftRight_eq_div_pow]
  have := w.isLt
  omega

/-- Format `XKK` with `kk` written as two nibbles. -/
theorem encodeXKK_append (op : Nibble) (x : Reg) (y n : Nibble) :
    encodeXKK op x (y ++ n) = wordOfNibbles op (nibbleOf x) y n := by
  apply BitVec.eq_of_toNat_eq
  rw [wordOfNibbles_toNat, encodeXKK, append_toNat, append_toNat, append_toNat]
  omega

section formats
variable {w c : Word} {op : Nibble}

/-- Format `NNN`, selected on the top nibble. -/
theorem encodeNNN_of_masked (h : w &&& 0xF000#16 = c) (hop : (Fields.of c).op = op) :
    encodeNNN op (Fields.of w).nnn = w := by
  rw [← hop, ← ((and_F000_eq w c).1 h).1, encodeNNN_of]

/-- Format `XKK`, selected on the top nibble. -/
theorem encodeXKK_of_masked (h : w &&& 0xF000#16 = c) (hop : (Fields.of c).op = op) :
    encodeXKK op (Fields.of w).rx (Fields.of w).kk = w := by
  rw [← hop, ← ((and_F000_eq w c).1 h).1, encodeXKK_of]

/-- Format `XYN`, selected on the top nibble. -/
theorem encodeXYN_of_masked (h : w &&& 0xF000#16 = c) (hop : (Fields.of c).op = op) :
    encodeXYN op (Fields.of w).rx (Fields.of w).ry (Fields.of w).n = w := by
  rw [← hop, ← ((and_F000_eq w c).1 h).1]
  exact wordOfNibbles_of w

/-- Format `XY`, selected on the top nibble and `n`. -/
theorem encodeXY_of_masked {n : Nibble} (h : w &&& 0xF00F#16 = c) (hop : (Fields.of c).op = op)
    (hn : (Fields.of c).n = n) : encodeXYN op (Fields.of w).rx (Fields.of w).ry n = w := by
  obtain ⟨hop', hn', -⟩ := (and_F00F_eq w c).1 h
  rw [← hop, ← hn, ← hop', ← hn']
  exact wordOfNibbles_of w

/-- Format `X`, selected on the top nibble and `kk`. -/
theorem encodeX_of_masked {kk : Byte} (h : w &&& 0xF0FF#16 = c) (hop : (Fields.of c).op = op)
    (hkk : (Fields.of c).kk = kk) : encodeXKK op (Fields.of w).rx kk = w := by
  obtain ⟨hop', hkk', -⟩ := (and_F0FF_eq w c).1 h
  rw [← hop, ← hkk, ← hop', ← hkk', encodeXKK_of]

/-- Group 0, selected on the top nibble and `kk`, whose two nibbles the encoder writes apart. -/
theorem encodeGroup0_of_masked {y n : Nibble} (h : w &&& 0xF0FF#16 = c) (hop : (Fields.of c).op = op)
    (hkk : (Fields.of c).kk = y ++ n) : wordOfNibbles op (Fields.of w).x y n = w :=
  (encodeXKK_append op (Fields.of w).rx y n).symm.trans (encodeX_of_masked h hop hkk)

end formats

/-- A word that a row selects under its plain mask is the encoding of what the row builds. -/
def Row.Reassembles (row : Row) : Prop := ∀ w, w &&& row.mask = row.code → encode (row.build (Fields.of w)) = w

theorem rowsFlow_reassemble : ∀ row ∈ rowsFlow, row.Reassembles := by
  simp only [rowsFlow, List.forall_mem_cons, List.not_mem_nil, false_imp_iff, implies_true, and_true]
  exact ⟨fun _ h => encodeGroup0_of_masked h rfl rfl, fun _ h => encodeGroup0_of_masked h rfl rfl,
    fun _ h => encodeNNN_of_masked h rfl, fun _ h => encodeNNN_of_masked h rfl, fun _ h => encodeXKK_of_masked h rfl,
    fun _ h => encodeXKK_of_masked h rfl, fun _ h => encodeXYN_of_masked h rfl, fun _ h => encodeXKK_of_masked h rfl,
    fun _ h => encodeXKK_of_masked h rfl⟩

theorem rowsArith_reassemble : ∀ row ∈ rowsArith, row.Reassembles := by
  simp only [rowsArith, List.forall_mem_cons, List.not_mem_nil, false_imp_iff, implies_true, and_true]
  refine ⟨?_, ?_, ?_, ?_, ?_, ?_, ?_, ?_, ?_⟩ <;> exact fun _ h => encodeXY_of_masked h rfl rfl

theorem rowsMiddle_reassemble : ∀ row ∈ rowsMiddle, row.Reassembles := by
  simp only [rowsMiddle, List.forall_mem_cons, List.not_mem_nil, false_imp_iff, implies_true, and_true]
  exact ⟨fun _ h => encodeXYN_of_masked h rfl, fun _ h => encodeNNN_of_masked h rfl,
    fun _ h => encodeNNN_of_masked h rfl, fun _ h => encodeXKK_of_masked h rfl, fun _ h => encodeXYN_of_masked h rfl⟩

theorem rowsKeyTimerMemory_reassemble : ∀ row ∈ rowsKeyTimerMemory, row.Reassembles := by
  simp only [rowsKeyTimerMemory, List.forall_mem_cons, List.not_mem_nil, false_imp_iff, implies_true, and_true]
  refine ⟨?_, ?_, ?_, ?_, ?_, ?_, ?_, ?_, ?_, ?_, ?_⟩ <;> exact fun _ h => encodeX_of_masked h rfl rfl

/-- Every row of the table of R90 builds an instruction whose encoding is the word that selected it. -/
theorem opcodeTable_reassembles : ∀ row ∈ opcodeTable, row.Reassembles := by
  simp only [opcodeTable, List.forall_mem_append]
  exact ⟨⟨⟨rowsFlow_reassemble, rowsArith_reassemble⟩, rowsMiddle_reassemble⟩, rowsKeyTimerMemory_reassemble⟩

/-- The strict mask of a row tests every bit that its plain mask tests, for the same code (R87). -/
theorem opcodeTable_strictMask :
    ∀ row ∈ opcodeTable, row.strictMask &&& row.mask = row.mask ∧ row.code &&& row.mask = row.code := by decide

/-- A word that a row selects under the mask in force is selected under the plain mask (R86, R87). -/
theorem and_mask_of_selects {row : Row} (hrow : row ∈ opcodeTable) {strict : Bool} {w : Word}
    (h : row.selects strict w = true) : w &&& row.mask = row.code := by
  have h : w &&& row.maskFor strict = row.code := by simpa [Row.selects] using h
  cases strict with
  | false => exact h
  | true =>
    obtain ⟨hm, hc⟩ := opcodeTable_strictMask row hrow
    calc w &&& row.mask = w &&& row.strictMask &&& row.mask := by rw [BitVec.and_assoc, hm]
      _ = row.code &&& row.mask := congrArg (· &&& row.mask) h
      _ = row.code := hc

/-- The encoding of a decoded word is that word (R81, R88, R90; log 15). -/
theorem encode_of_decodeWord {strict : Bool} {w : Word} {i : Instr} (h : decodeWord strict w = some i) :
    encode i = w := by
  obtain ⟨row, hfind, rfl⟩ := Option.map_eq_some_iff.1 h
  have hrow : row ∈ opcodeTable := List.mem_of_find?_eq_some hfind
  have hsel : row.selects strict w = true := List.find?_some (p := fun r : Row => r.selects strict w) hfind
  exact opcodeTable_reassembles row hrow w (and_mask_of_selects hrow hsel)

/-- Two rows of the table differ in a bit that both test, so no word selects both (R88). -/
theorem opcodeTable_disjoint : opcodeTable.Pairwise fun r q => r.code &&& q.mask ≠ q.code &&& r.mask := by decide

/-- At most one row of the table selects a word (R88). -/
theorem opcodeTable_selects_unique (strict : Bool) (w : Word) :
    opcodeTable.Pairwise fun r q => ¬ (r.selects strict w = true ∧ q.selects strict w = true) := by
  refine opcodeTable_disjoint.imp_of_mem fun {r q} hr hq hne ⟨hrw, hqw⟩ => hne ?_
  rw [← and_mask_of_selects hr hrw, ← and_mask_of_selects hq hqw, BitVec.and_assoc, BitVec.and_assoc,
    BitVec.and_comm r.mask]

/-- A row that selects a word decodes it (R88). -/
theorem decodeWord_of_selects {row : Row} (hrow : row ∈ opcodeTable) {strict : Bool} {w : Word}
    (h : row.selects strict w = true) : decodeWord strict w = some (row.build (Fields.of w)) := by
  obtain ⟨as, bs, htable⟩ := List.append_of_mem hrow
  have huniq := opcodeTable_selects_unique strict w
  rw [htable, List.pairwise_append] at huniq
  have hfind : (opcodeTable.find? fun r => r.selects strict w) = some row := by
    refine List.find?_eq_some_iff_append.2 ⟨h, as, bs, htable, fun r hr => ?_⟩
    have hne := huniq.2.2 r hr row List.mem_cons_self
    simpa [h] using hne
  rw [decodeWord, hfind, Option.map_some]

/-- Every instruction has its row: the family `Selected`, put together. -/
theorem Laws.Selected.statement : (i : Instr) → Statement i
  | .cls x => cls x
  | .ret x => ret x
  | .jp a => jp a
  | .call a => call a
  | .seByte x k => seByte x k
  | .sneByte x k => sneByte x k
  | .seReg x y n => seReg x y n
  | .ldByte x k => ldByte x k
  | .addByte x k => addByte x k
  | .ldReg x y => ldReg x y
  | .orReg x y => orReg x y
  | .andReg x y => andReg x y
  | .xorReg x y => xorReg x y
  | .addReg x y => addReg x y
  | .subReg x y => subReg x y
  | .shr x y => shr x y
  | .subnReg x y => subnReg x y
  | .shl x y => shl x y
  | .sneReg x y n => sneReg x y n
  | .ldI a => ldI a
  | .jpV0 a => jpV0 a
  | .rnd x k => rnd x k
  | .drw x y n => drw x y n
  | .skp x => skp x
  | .sknp x => sknp x
  | .ldVxDT x => ldVxDT x
  | .ldVxK x => ldVxK x
  | .ldDTVx x => ldDTVx x
  | .ldSTVx x => ldSTVx x
  | .addI x => addI x
  | .ldF x => ldF x
  | .ldB x => ldB x
  | .storeRegs x => storeRegs x
  | .loadRegs x => loadRegs x

/-- Decoding the encoding of a well-formed instruction gives it back (R81, R90). -/
theorem decodeWord_encode {strict : Bool} {i : Instr} (h : WellFormed strict i = true) :
    decodeWord strict (encode i) = some i := by
  obtain ⟨row, hrow, hsel, hbuild⟩ := Laws.Selected.statement i strict h
  rw [decodeWord_of_selects hrow hsel, hbuild]

end Sys2Proof
end

section
/-! SUPPORT. The step against the ordered checks of R185, and the opcode that `withFetchWord` places. -/

namespace Sys2Proof.Machine

/-- A running block whose checks, in the order of R185, give a fault takes that fault, with the opcode of R183. -/
theorem step_of_faultOf {s : State} (hrun : s.halt = false) {k : Fault} {o : Word} (h : faultOf s = some (k, o)) :
    step s = .next (s.takeFault k o) := by
  rw [faultOf] at h
  split at h
  · next hodd => cases h; exact step_fetch_error hrun (fetch_odd s hodd)
  · next hodd =>
    split at h
    · next hhigh => cases h; exact step_fetch_error hrun (fetch_high s (by omega) hhigh)
    · next hhigh =>
      have hfetch := fetch_even s (by omega) (by omega)
      split at h
      · next hdec => cases h; exact step_illegal hrun hfetch hdec
      · next i hdec =>
        obtain ⟨k', hk, hko⟩ := Option.map_eq_some_iff.1 h
        cases hko
        rw [step_decoded hrun hfetch hdec, exec_fault hk, encode_of_decodeWord hdec]

/-- A running block whose checks give no fault completes the effect of the instruction at PC (R32, R185). -/
theorem step_of_faultOf_none {s : State} (hrun : s.halt = false) (h : faultOf s = none) :
    ∃ i, step s = .next (s.effect i) := by
  rw [faultOf] at h
  split at h
  · cases h
  · next hodd =>
    split at h
    · cases h
    · next hhigh =>
      split at h
      · cases h
      · next i hdec =>
        have hfetch := fetch_even s (by omega) (by omega)
        exact ⟨i, by rw [step_decoded hrun hfetch hdec, exec_effect (Option.map_eq_none_iff.1 h)]⟩

/-- A 16-bit opcode is its own table number. -/
theorem wordOfTable_toNat (w : Word) : wordOfTable 16 w.toNat = w := by
  rw [wordOfTable, Nat.mod_eq_of_lt w.isLt, BitVec.ofNat_toNat, BitVec.setWidth_eq]

/-- A fetch may read at PC when it is even and at most 0xFFE (R60). -/
theorem fetchable_iff {pc : Word} : State.fetchable pc = true ↔ pc.toNat % 2 = 0 ∧ pc.toNat ≤ 0xFFE := by
  rw [State.fetchable, getLsbD_zero_eq_odd]
  simp

/-- The bytes of an opcode, put together, are the opcode (R50). -/
theorem opcodeOf_bytes (w : Word) : opcodeOf (highByte w) (lowByte w) = w := by
  apply BitVec.eq_of_toNat_eq
  rw [opcodeOf, append_toNat, highByte, lowByte, BitVec.extractLsb'_toNat, BitVec.extractLsb'_toNat,
    Nat.shiftRight_eq_div_pow]
  have := w.isLt
  omega

/-- A fetch after placing an opcode answers that opcode (R50, R63). -/
theorem placeOpcode_fetch {s : State} (hwf : s.mem.wf) (w : Word) : (s.placeOpcode w).fetch = .ok w := by
  obtain ⟨heven, hpc⟩ := fetchable_iff.1 (placeOpcode_fetchable s w)
  have hread : ∀ k (hk : k < 2), (s.placeOpcode w).mem.read ((s.placeOpcode w).pc.toNat + k) = (bytesOf w)[k] :=
    fun k hk => Memory.read_writeList hwf (Nat.add_le_add_right hpc 2) hk
  have hop : (s.placeOpcode w).opcodeAtPC = w := by
    have h0 := hread 0 (by omega)
    have h1 := hread 1 (by omega)
    rw [Nat.add_zero] at h0
    rw [State.opcodeAtPC, h0, h1]
    exact opcodeOf_bytes w
  rw [fetch_even _ heven hpc, hop]

/-- Where a fetch may happen, placing an opcode stores two bytes and does nothing else. -/
theorem placeOpcode_eq {s : State} (hrun : s.halt = false) (hpc : State.fetchable s.pc = true) (w : Word) :
    s.placeOpcode w = s.setMem (s.mem.writeList s.pc.toNat (bytesOf w)) := by
  rw [State.placeOpcode, if_pos hpc, State.setMem, ← hrun]

end Sys2Proof.Machine

namespace Sys2Proof.Proofs
open Sys2Proof Sys2Proof.Machine

/-- Settles O8: the word named in the statement is the fetched one, since both are the same number. -/
theorem stepRunsDecodedInstruction : Obligations.StepRunsDecodedInstruction := by
  intro s w i hrun heven hpc hw hdec
  obtain rfl : s.opcodeAtPC = w := BitVec.eq_of_toNat_eq ((opcodeAtPC_toNat s).trans hw.symm)
  exact step_decoded hrun (fetch_even s heven hpc) hdec

/-- Settles O9: the placed opcode is fetched, and decoding undoes the encoding. -/
theorem placedOpcodeIsStepped : Obligations.PlacedOpcodeIsStepped := by
  intro s i hwf hi
  rw [State.withFetchWord, wordOfTable_toNat]
  refine ⟨step_decoded rfl (placeOpcode_fetch hwf _) (decodeWord_encode hi), fun hrun heven hpc => ?_⟩
  rw [placeOpcode_eq hrun (fetchable_iff.2 ⟨heven, hpc⟩)]
  exact (Keeps.refl _ s).writeList fun _ h => h

/-- Settles O11: by the ordered checks, which either give the fault that the step takes or leave it the effect of the
instruction at PC. -/
theorem stepFaultsExactlyAsOrdered : Obligations.StepFaultsExactlyAsOrdered := by
  intro s hrun
  constructor
  · intro k o h
    exact ⟨_, step_of_faultOf hrun h, rfl, rfl, (Keeps.refl _ s).takeFault (by simp [Among]) (by simp [Among]) k o⟩
  · intro h
    obtain ⟨i, hi⟩ := step_of_faultOf_none hrun h
    exact ⟨_, hi, (effect_halt i s).trans hrun⟩

end Sys2Proof.Proofs
end

section
/-! SUPPORT. The host's view: a halted block, a waiting block, and the timers. -/

namespace Sys2Proof.Machine

/-- The parts that SetKeys and TimerTick write (R198, R199). -/
def KeysAndTimers (p : Part) : Prop := IsKey p ∨ p = .dt ∨ p = .st

/-- TimerTick is two timer updates (R199). -/
theorem timerTick_keeps {W : Part → Prop} (hdt : W .dt) (hst : W .st) (s : State) : Keeps W s s.timerTick :=
  ((Keeps.refl W s).setDT hdt _).setST hst _

/-- One less, floored at 0, is subtraction on the natural numbers (R199). -/
theorem tickByte_toNat (b : Byte) : (tickByte b).toNat = b.toNat - 1 := by
  by_cases hb : b = 0
  · subst hb; rfl
  · rw [tickByte, if_neg hb]
    have hpos : b.toNat ≠ 0 := fun h => hb (BitVec.eq_of_toNat_eq h)
    rw [BitVec.toNat_sub_of_le (by rw [BitVec.le_def]; exact Nat.one_le_iff_ne_zero.2 hpos)]
    rfl

theorem apply_step_halted {p : Session} (h : p.machine.halt = true) : p.apply .step = (p, .refused) := by
  simp only [Session.apply, step_halted h]

theorem apply_loadProgram_refused {p : Session} (h : p.mayLoad = false) (image : List Byte) :
    p.apply (.loadProgram image) = (p, .refused) := by
  simp [Session.apply, h]

/-- A transaction other than Reset, on a halted block past its load phase, writes at most the key flags and the timers,
and loading stays refused (R192, R214). -/
theorem apply_halted {p : Session} (hhalt : p.machine.halt = true) (hload : p.mayLoad = false) {x : Transaction}
    (hx : x ≠ .reset) :
    Keeps KeysAndTimers p.machine (p.apply x).1.machine ∧ (p.apply x).1.mayLoad = false := by
  have start := Keeps.refl KeysAndTimers p.machine
  cases x with
  | reset => exact absurd rfl hx
  | loadProgram image => rw [apply_loadProgram_refused hload]; exact ⟨start, hload⟩
  | step => rw [apply_step_halted hhalt]; exact ⟨start, hload⟩
  | setKeys keys => exact ⟨start.setKeys (fun _ => .inl) keys, hload⟩
  | timerTick => exact ⟨timerTick_keeps (.inr (.inl rfl)) (.inr (.inr rfl)) p.machine, hload⟩
  | readDisplay | readStatus => exact ⟨start, hload⟩

/-- The Waiting condition: HALT is false, wait-for-key is at PC and no key is down (R34). -/
theorem condition_waiting {s : State} (h : s.condition = .waiting) :
    ∃ x, s.current = some (.ldVxK x) ∧ s.firstKey = none := by
  rw [State.condition] at h
  split at h
  · cases h
  · split at h
    · next hw =>
      rw [Bool.and_eq_true, Option.isNone_iff_eq_none, Option.any_eq_true] at hw
      obtain ⟨⟨i, hi, hkey⟩, hnone⟩ := hw
      cases i with
      | ldVxK x => exact ⟨x, hi, hnone⟩
      | _ => cases hkey
    · cases h

end Sys2Proof.Machine

namespace Sys2Proof.Proofs
open Sys2Proof Sys2Proof.Machine

/-- Settles O20, by induction on the history: HALT is among the parts that each transaction keeps. -/
theorem haltedUntilReset : Obligations.HaltedUntilReset := by
  intro p ts hhalt hload hts
  induction ts generalizing p with
  | nil => exact Keeps.refl _ _
  | cons x ts ih =>
    obtain ⟨hkeep, hload'⟩ := apply_halted hhalt hload (hts x List.mem_cons_self)
    have hhalt' : (p.apply x).1.machine.halt = p.machine.halt := hkeep .halt (by simp [KeysAndTimers, IsKey])
    exact hkeep.trans (ih _ (hhalt'.trans hhalt) hload' fun y hy => hts y (List.mem_cons_of_mem _ hy))

/-- Settles O21: with no key down the effect of wait-for-key is the state itself. -/
theorem waitingStepIsIdentity : Obligations.WaitingStepIsIdentity := by
  intro s h
  obtain ⟨x, hcur, hnone⟩ := condition_waiting h
  have hexec : exec (.ldVxK x) s = .next (s.effect (.ldVxK x)) := exec_effect rfl
  rw [step_of_current hcur, hexec, effect_ldVxK_none x hnone]

/-- Settles O57: the tick is one update for each timer. -/
theorem timerTickDecrementsEachTimer : Obligations.TimerTickDecrementsEachTimer :=
  fun p => ⟨tickByte_toNat _, tickByte_toNat _, timerTick_keeps (by simp [Among]) (by simp [Among]) p.machine, rfl⟩

end Sys2Proof.Proofs
end

section
/-! PROOFS. The values after Reset (R36, R61). -/

namespace Sys2Proof.Machine

/-- Memory above the font is zero after Reset: the font's 16 sprites of 5 bytes end at 0x04F (R36, R61). -/
theorem resetByte_of_ge {a : Nat} (h : 0x050 ≤ a) : resetByte a = 0 := by
  have hlen : fontTable.length ≤ a / 5 := by rw [show fontTable.length = 16 from rfl]; omega
  rw [resetByte, List.getD_eq_default _ _ hlen, List.getD_nil]

theorem reset_stack_get (k : Fin 16) : State.reset.stack.get k = 0 := by
  simp [State.reset, Vector.get_eq_getElem]

theorem reset_keys_get (k : Key) : State.reset.keys.get k = false := by
  simp [State.reset, Vector.get_eq_getElem]

end Sys2Proof.Machine

namespace Sys2Proof.Proofs
open Sys2Proof Sys2Proof.Machine

/-- Settles O52: field by field; an unlisted byte reads from the font's table. -/
theorem resetValues : Obligations.ResetValues :=
  ⟨rfl, State.reset_reg, rfl, rfl, reset_stack_get, rfl, rfl, reset_keys_get, pixel_blankDisplay, rfl, by decide,
    fun _ => resetByte_of_ge⟩

end Sys2Proof.Proofs
end

section
/-! SUPPORT. The shapes that several instructions share: a skip, and a flag written before a result; and the arithmetic
of the results as numbers. -/

namespace Sys2Proof.Machine

/-- A skip instruction writes PC alone, to the entry of R33 (R114 to R117, R170, R171). -/
theorem exec_skip {i : Instr} {s : State} {taken : Prop} [Decidable taken] (hf : ownFault i s = none)
    (hw : ∀ p, writes i s p → p = .pc) (hpc : nextPC i s = skipTarget s.pc taken) :
    ∃ t, exec i s = .next t ∧ Keeps (Among [.pc]) s t ∧
      (taken → t.pc.toNat = (s.pc.toNat + 4) % 65536) ∧ (¬ taken → t.pc.toNat = (s.pc.toNat + 2) % 65536) := by
  have hskip : (s.effect i).pc.toNat = skipTarget s.pc taken := (effect_pc i s).trans hpc
  exact ⟨_, exec_effect hf, (effect_keeps i s).mono fun p hp => List.mem_singleton.2 (hw p hp),
    fun h => hskip.trans (if_pos h), fun h => hskip.trans (if_neg h)⟩

/-- A flag-producing instruction with a destination other than VF leaves the result in Vx, the flag in VF and nothing
else changed but PC (R140). -/
theorem setFlagThen_advance {x : Reg} (hx : x ≠ VF) (f : Bool) (r : Byte) (s : State) :
    (s.setFlagThen f x r).advance.reg x = r ∧ (s.setFlagThen f x r).advance.reg VF = flagByte f ∧
      (s.setFlagThen f x r).advance.pc.toNat = (s.pc.toNat + 2) % 65536 ∧
      Keeps (Among [.pc, .reg x, .reg VF]) s (s.setFlagThen f x r).advance := by
  refine ⟨by simp, by simp [Ne.symm hx], advance_pc_toNat _, ?_⟩
  exact (((Keeps.refl _ s).setReg (by simp [Among]) _).setReg (by simp [Among]) _).advance (by simp [Among])

theorem addByte_toNat (a b : Byte) : (addByte a b).toNat = (a.toNat + b.toNat) % 256 := BitVec.toNat_ofNat _ _

theorem subByte_toNat (a b : Byte) : ((subByte a b).toNat : Int) = ((a.toNat : Int) - (b.toNat : Int)) % 256 := by
  rw [subByte, BitVec.toNat_ofInt]
  exact Int.toNat_of_nonneg (Int.emod_nonneg _ (by decide))

theorem shiftRight_toNat (a : Byte) : (shiftRight a).toNat = a.toNat / 2 := by
  rw [shiftRight, BitVec.toNat_ofNat, Nat.mod_eq_of_lt (by have := a.isLt; omega)]

theorem shiftLeft_toNat (a : Byte) : (shiftLeft a).toNat = a.toNat * 2 % 256 := BitVec.toNat_ofNat _ _

theorem carries_toNat (a b : Byte) : (flagByte (carries a b)).toNat = if 255 < a.toNat + b.toNat then 1 else 0 := by
  simp [flagByte_toNat, carries]

theorem noBorrow_toNat (a b : Byte) : (flagByte (noBorrow a b)).toNat = if b.toNat ≤ a.toNat then 1 else 0 := by
  simp [flagByte_toNat, noBorrow]

/-- Bit 0 of a byte as a number (R144). -/
theorem bitOutRight_toNat (a : Byte) : (flagByte (bitOutRight a)).toNat = a.toNat % 2 := by
  rw [flagByte_toNat, bitOutRight, BitVec.getLsbD, Nat.testBit_zero]
  by_cases h : a.toNat % 2 = 1
  · simp [h]
  · simp [h]; omega

/-- Bit 7 of a byte as a number (R146). -/
theorem bitOutLeft_toNat (a : Byte) : (flagByte (bitOutLeft a)).toNat = a.toNat / 128 := by
  have hlt := a.isLt
  rw [flagByte_toNat, bitOutLeft, BitVec.getLsbD, Nat.testBit_eq_decide_div_mod_eq]
  by_cases h : a.toNat / 128 = 1
  · simp [h]
  · have h0 : a.toNat / 128 = 0 := by omega
    simp [h0]

end Sys2Proof.Machine
end

section
/-! PROOFS. Return, call, the skips and the flag-producing instructions, from their effects. -/

namespace Sys2Proof.Proofs
open Sys2Proof Sys2Proof.Machine

/-- Settles O26: the effect of RET with a slot below SP. -/
theorem returnPopsAndAdvances : Obligations.ReturnPopsAndAdvances := by
  intro x s k hk
  have hf : ownFault (.ret x) s = none := by simp [ownFault, hk]
  have hsp : (s.effect (.ret x)).sp.val = k.val := by
    have hmod : (s.effect (.ret x)).sp.val = (s.sp.val - 1) % 17 := rfl
    omega
  have hpc : (s.effect (.ret x)).pc.toNat = ((s.stack.get k).toNat + 2) % 65536 := by
    rw [← topSlot_eq_get hk]; exact effect_pc (.ret x) s
  exact ⟨_, exec_effect hf, hsp, hpc, (effect_keeps (.ret x) s).mono fun p hp => by simpa [writes, Among] using hp⟩

/-- Settles O27: the effect of CALL with room on the stack; the one slot it may write is slot k. -/
theorem callPushesItsOwnAddress : Obligations.CallPushesItsOwnAddress := by
  intro nnn s k hk
  have hf : ownFault (.call nnn) s = none := if_neg (by omega)
  have hsp : (s.effect (.call nnn)).sp.val = k.val + 1 := by
    have hmod : (s.effect (.call nnn)).sp.val = (s.sp.val + 1) % 17 := rfl
    omega
  have hframe : ∀ p, writes (.call nnn) s p → Among [.pc, .sp, .slot k] p := by
    rintro p (rfl | rfl | ⟨j, hj, rfl⟩)
    · simp [Among]
    · simp [Among]
    · simp [Among, Fin.ext (hj.trans hk)]
  exact ⟨_, exec_effect hf, hsp, pushed_slot_same _ hk.symm, effect_pc _ s, (effect_keeps _ s).mono hframe⟩

/-- Settles O30: both are skips, on a comparison and on its negation. -/
theorem skipsOnByte : Obligations.SkipsOnByte := by
  intro x kk s
  have hse := exec_skip (i := .seByte x kk) (s := s) (taken := s.reg x = kk) rfl (by simp [writes]) rfl
  have hsne := exec_skip (i := .sneByte x kk) (s := s) (taken := s.reg x ≠ kk) rfl (by simp [writes]) rfl
  exact ⟨hse, by simpa only [not_not] using hsne⟩

/-- Settles O31: the same two skips, the unconsulted nibble being in neither effect nor table. -/
theorem skipsOnRegister : Obligations.SkipsOnRegister := by
  intro x y n s
  have hse := exec_skip (i := .seReg x y n) (s := s) (taken := s.reg x = s.reg y) rfl (by simp [writes]) rfl
  have hsne := exec_skip (i := .sneReg x y n) (s := s) (taken := s.reg x ≠ s.reg y) rfl (by simp [writes]) rfl
  exact ⟨hse, by simpa only [not_not] using hsne⟩

/-- Settles O34: the result and the flag are computed from the operands before either is written. -/
theorem addRegSetsCarry : Obligations.AddRegSetsCarry := by
  intro x y s hx
  obtain ⟨hres, hflag, hpc, hframe⟩ :=
    setFlagThen_advance hx (carries (s.reg x) (s.reg y)) (addByte (s.reg x) (s.reg y)) s
  exact ⟨_, exec_effect rfl, hres ▸ addByte_toNat _ _, hflag ▸ carries_toNat _ _, hpc, hframe⟩

/-- Settles O35: both subtractions are one shape with the operands exchanged. -/
theorem subtractionsSetNotBorrow : Obligations.SubtractionsSetNotBorrow := by
  intro x y s hx
  constructor
  · obtain ⟨hres, hflag, hpc, hframe⟩ :=
      setFlagThen_advance hx (noBorrow (s.reg x) (s.reg y)) (subByte (s.reg x) (s.reg y)) s
    exact ⟨_, exec_effect rfl, hres ▸ subByte_toNat _ _, hflag ▸ noBorrow_toNat _ _, hpc, hframe⟩
  · obtain ⟨hres, hflag, hpc, hframe⟩ :=
      setFlagThen_advance hx (noBorrow (s.reg y) (s.reg x)) (subByte (s.reg y) (s.reg x)) s
    exact ⟨_, exec_effect rfl, hres ▸ subByte_toNat _ _, hflag ▸ noBorrow_toNat _ _, hpc, hframe⟩

/-- Settles O36: the y field is not in the effect. -/
theorem shiftsSetTheBitShiftedOut : Obligations.ShiftsSetTheBitShiftedOut := by
  intro x y s hx
  constructor
  · obtain ⟨hres, hflag, hpc, hframe⟩ := setFlagThen_advance hx (bitOutRight (s.reg x)) (shiftRight (s.reg x)) s
    exact ⟨_, exec_effect rfl, hres ▸ shiftRight_toNat _, hflag ▸ bitOutRight_toNat _, hpc, hframe⟩
  · obtain ⟨hres, hflag, hpc, hframe⟩ := setFlagThen_advance hx (bitOutLeft (s.reg x)) (shiftLeft (s.reg x)) s
    exact ⟨_, exec_effect rfl, hres ▸ shiftLeft_toNat _, hflag ▸ bitOutLeft_toNat _, hpc, hframe⟩

end Sys2Proof.Proofs
end

section
/-! SUPPORT. The memory primitives (R53 to R58): what one byte access answers, and a block access unrolled from its
first byte. -/

namespace Sys2Proof.Machine

/-- The first fault of a range is that of its first address, or else the first of the rest. -/
theorem rangeFault_succ (f : Nat → Option Fault) (a n : Nat) :
    rangeFault f a (n + 1) = (f a).or (rangeFault f (a + 1) n) := by
  have hrest : ((List.range n).map Nat.succ).findSome? (fun k => f (a + k)) = rangeFault f (a + 1) n := by
    rw [List.findSome?_map, rangeFault]
    exact congrArg (List.findSome? · _) (funext fun k => congrArg f (Nat.add_right_comm a k 1))
  rw [rangeFault, List.range_succ_eq_map, List.findSome?_cons, hrest, Nat.add_zero]
  cases f a <;> rfl

theorem memRead_ok (s : State) {a : Nat} (h : a < memSize) : s.memRead a = .ok (s.mem.read a) := by
  rw [State.memRead, readFault_eq_none.2 h]

theorem memRead_bounds (s : State) {a : Nat} (h : memSize ≤ a) : s.memRead a = .error .boundsError := by
  rw [State.memRead, readFault, if_pos h]

/-- A block is read as its first byte and then the rest (R53). -/
theorem readBlock_succ (s : State) (a n : Nat) :
    s.readBlock a (n + 1) = s.memRead a >>= fun b => (s.readBlock (a + 1) n).map (b :: ·) := by
  have hbytes : (List.range (n + 1)).map (fun k => s.mem.read (a + k)) =
      s.mem.read a :: (List.range n).map fun k => s.mem.read (a + 1 + k) := by
    rw [List.range_succ_eq_map, List.map_cons, List.map_map]
    exact congrArg (List.cons _) (List.map_congr_left fun k _ => congrArg s.mem.read (Nat.add_right_comm a k 1))
  rw [State.readBlock, State.memRead, State.readBlock, rangeFault_succ, hbytes]
  cases readFault a with
  | some k => rfl
  | none => cases rangeFault readFault (a + 1) n <;> rfl

/-- A block is written as its first byte and then the rest: a byte write changes no raise condition (R57). -/
theorem writeBlock_cons (s : State) (a : Nat) (v : Byte) (vs : List Byte) :
    s.writeBlock a (v :: vs) = s.memWrite a v >>= fun t => t.writeBlock (a + 1) vs := by
  rw [State.writeBlock, State.memWrite, List.length_cons, rangeFault_succ]
  cases writeFault s.cfg a with
  | some k => rfl
  | none => rfl

/-- A block of one byte is a byte access (R53). -/
theorem writeBlock_singleton (s : State) (a : Nat) (v : Byte) : s.writeBlock a [v] = s.memWrite a v := by
  rw [writeBlock_cons]
  cases s.memWrite a v <;> rfl

theorem readBlock_one (s : State) (a : Nat) : s.readBlock a 1 = (s.memRead a).map fun b => [b] := by
  rw [readBlock_succ]
  cases s.memRead a <;> rfl

/-- A block read is the byte reads in ascending order (R53, R56). -/
theorem readBlock_eq_mapM (s : State) (a n : Nat) :
    s.readBlock a n = (List.range n).mapM fun k => s.memRead (a + k) := by
  induction n generalizing a with
  | zero => rfl
  | succ n ih =>
    have hrest : ((List.range n).map Nat.succ).mapM (fun k => s.memRead (a + k)) = s.readBlock (a + 1) n := by
      rw [List.mapM_map, ih]
      exact congrArg (List.mapM · _) (funext fun k => congrArg s.memRead (Nat.add_right_comm a k 1))
    rw [readBlock_succ, List.range_succ_eq_map, List.mapM_cons, hrest]
    rfl

/-- A block write is the byte writes in ascending order, the first `n` bytes further on (R53, R57). -/
theorem writeBlock_eq_foldlM (s : State) (a n : Nat) (vs : List Byte) :
    s.writeBlock (a + n) vs = (vs.zipIdx n).foldlM (fun t p => t.memWrite (a + p.2) p.1) s := by
  induction vs generalizing s n with
  | nil => rfl
  | cons v vs ih =>
    rw [writeBlock_cons, List.zipIdx_cons, List.foldlM_cons]
    exact congrArg (s.memWrite (a + n) v >>= ·) (funext fun t => ih t (n + 1))

end Sys2Proof.Machine
end

section
/-! SUPPORT. Memory after an instruction that stores a block at I (R153, R154). -/

namespace Sys2Proof.Machine

/-- An effect keeps the canonical form of memory. -/
theorem effect_mem_wf {i : Instr} {s : State} (h : s.mem.wf) (hf : ownFault i s = none) : (s.effect i).mem.wf := by
  obtain hm | ⟨vs, hm, hb, -⟩ := effect_mem hf
  · rwa [hm]
  · rw [hm]; exact Memory.wf_writeList h hb

/-- LD B, Vx leaves the k-th decimal digit at I + k (R153). -/
theorem effect_ldB_read {x : Reg} {s : State} (h : s.mem.wf) (hf : ownFault (.ldB x) s = none) {k : Nat}
    (hk : k < (bcdDigits (s.reg x)).length) :
    (s.effect (.ldB x)).mem.read (s.i.toNat + k) = (bcdDigits (s.reg x))[k] :=
  Memory.read_writeList h (storeFault_eq_none.1 hf).1 hk

/-- LD [I], Vx leaves Vr at I + r (R154). -/
theorem effect_storeRegs_read {x r : Reg} {s : State} (h : s.mem.wf) (hf : ownFault (.storeRegs x) s = none)
    (hr : r ≤ x) : (s.effect (.storeRegs x)).mem.read (s.i.toNat + r.val) = s.reg r := by
  have hb : s.base + (s.regBlock x).length ≤ memSize := (regBlock_length s x).symm ▸ (storeFault_eq_none.1 hf).1
  exact (Memory.read_writeList h hb (by rw [regBlock_length]; exact Nat.lt_succ_of_le hr)).trans (regBlock_getElem s hr)

/-- What a step does to memory: nothing, or the storing of a block at I that `ROM_PROTECT` does not forbid. -/
theorem step_mem {s t : State} (h : step s = .next t) : t.mem = s.mem ∨
    ∃ vs, t.mem = s.mem.writeList s.base vs ∧ (s.cfg.romProtect = true → programBase ≤ s.base) := by
  obtain ⟨-, ⟨k, -, rfl⟩ | ⟨w, -, -, rfl⟩ | ⟨w, i, -, -, hexec⟩⟩ := step_next_cases h
  · exact .inl rfl
  · exact .inl rfl
  · obtain ⟨k, -, rfl⟩ | ⟨hf, rfl⟩ := exec_next_cases hexec
    · exact .inl rfl
    · exact (effect_mem hf).imp_right fun ⟨vs, hm, _, hp⟩ => ⟨vs, hm, hp⟩

/-- The digits of a byte fit a byte each (R153). -/
theorem bcdDigits_toNat (b : Byte) :
    (bcdDigits b).map BitVec.toNat = [b.toNat / 100, b.toNat / 10 % 10, b.toNat % 10] := by
  have hb := b.isLt
  simp [bcdDigits]
  omega

end Sys2Proof.Machine
end

section
/-! PROOFS. The memory primitives, the protected region, a stored block as it is fetched, LD F and LD B. -/

namespace Sys2Proof.Proofs
open Sys2Proof Sys2Proof.Machine

/-- Settles O60, by induction on the block, unrolled from its first byte. -/
theorem blockAccessIsSequenceOfByteAccesses : Obligations.BlockAccessIsSequenceOfByteAccesses :=
  fun s a => ⟨readBlock_eq_mapM s a, writeBlock_eq_foldlM s a 0, readBlock_one s a, writeBlock_singleton s a⟩

/-- Settles O24, on the two sides of the last address. -/
theorem memReadChecksBounds : Obligations.MemReadChecksBounds :=
  fun s _ => ⟨fun h => memRead_bounds s h, fun h => memRead_ok s (Nat.lt_succ_of_le h)⟩

/-- Settles O25: a byte write is the write of a block of one byte. -/
theorem memWriteChecksBoundsAndProtection : Obligations.MemWriteChecksBoundsAndProtection := by
  intro s a v hwf
  rw [← writeBlock_singleton]
  refine ⟨fun h => ?_, fun hp h => ?_, fun h hp => ?_⟩
  · exact writeBlock_bounds s (Nat.succ_lt_succ h) Nat.one_pos fun _ => by rw [programBase]; omega
  · exact writeBlock_reserved s Nat.one_pos hp (Nat.lt_succ_of_le h)
  · have hprot : s.cfg.romProtect = true → programBase ≤ a := fun hr => hp.resolve_left (by simp [hr])
    have hframe : ∀ p, InBlock a 1 p → Among [.byte a] p := by
      rintro p ⟨k, hk, rfl⟩
      simp [Among, Nat.lt_one_iff.1 hk]
    exact ⟨_, writeBlock_ok s (Nat.succ_le_succ h) hprot, Memory.read_write_same hwf a v,
      Memory.wf_write hwf (Nat.lt_succ_of_le h), (Keeps.refl _ s).writeList hframe⟩

/-- Settles O19: the only blocks a step stores start at I, above the protected region. -/
theorem protectedRegionIsNeverWritten : Obligations.ProtectedRegionIsNeverWritten := by
  intro s t hrom hst a ha
  obtain hm | ⟨vs, hm, hp⟩ := step_mem hst
  · rw [hm]
  · rw [hm]
    exact Memory.read_writeList_other _ (.inl ((Nat.lt_succ_of_le ha).trans_le (hp hrom)))

/-- Settles O23: both bytes of the opcode are read from the stored block. -/
theorem storedBytesAreFetched : Obligations.StoredBytesAreFetched := by
  intro x r q s hwf hprot hb hq hqx heven
  have hf : ownFault (.storeRegs x) s = none := storeFault_eq_none.2 ⟨Nat.succ_le_succ hb, hprot⟩
  have hr : r ≤ x := Fin.le_def.2 (by have := Fin.le_def.1 hqx; omega)
  have hpcMax : s.i.toNat + r.val ≤ 0xFFE := by have := Fin.le_def.1 hqx; omega
  have hpc : (BitVec.ofNat 16 (s.i.toNat + r.val)).toNat = s.i.toNat + r.val := Nat.mod_eq_of_lt (by omega)
  have hhigh := effect_storeRegs_read hwf hf hr
  have hlow := effect_storeRegs_read hwf hf hqx
  refine ⟨_, _, exec_effect hf, fetch_even _ (by rwa [State.jump_pc, hpc]) (hpc.trans_le hpcMax), ?_⟩
  rw [opcodeAtPC_toNat, State.jump_pc, State.jump_mem, hpc, Nat.add_assoc, ← hq, hhigh, hlow]

/-- Settles O40: a digit in range gives the effect of LD F, any other its fault. -/
theorem fontDigitAddress : Obligations.FontDigitAddress := by
  intro x s
  constructor
  · intro h
    have hf : ownFault (.ldF x) s = none := if_neg (by omega)
    have hi : (s.effect (.ldF x)).i.toNat = 5 * (s.reg x).toNat := Nat.mod_eq_of_lt (by omega)
    exact ⟨_, exec_effect hf, hi, effect_pc _ s,
      (effect_keeps _ s).mono fun p hp => by simpa [writes, Among] using hp⟩
  · intro h
    have hf : ownFault (.ldF x) s = some .boundsError := if_pos h
    exact ⟨_, exec_fault hf, rfl, rfl, (Keeps.refl _ s).takeFault (by simp [Among]) (by simp [Among]) _ _⟩

/-- Settles O41: the effect of LD B stores the block of the three digits at I. -/
theorem storeBcdDigits : Obligations.StoreBcdDigits := by
  intro x s hwf hb hprot
  have hf : ownFault (.ldB x) s = none := storeFault_eq_none.2 ⟨Nat.succ_le_succ hb, hprot⟩
  have hdigit : ∀ k (hk : k < 3), ((s.effect (.ldB x)).mem.read (s.i.toNat + k)).toNat =
      [(s.reg x).toNat / 100, (s.reg x).toNat / 10 % 10, (s.reg x).toNat % 10][k] := by
    intro k hk
    rw [effect_ldB_read hwf hf hk]
    exact (List.getElem_map BitVec.toNat).symm.trans (List.getElem_of_eq (bcdDigits_toNat (s.reg x)) hk)
  exact ⟨_, exec_effect hf, hdigit 0 (by omega), hdigit 1 (by omega), hdigit 2 (by omega),
    effect_mem_wf hwf hf, effect_pc _ s, effect_keeps (.ldB x) s⟩

end Sys2Proof.Proofs
end

section
/-! SUPPORT. What the encoding statements need beyond the round trip: the terms that `STRICT_DECODE` accepts (R87), and the
search of the table as a dispatch on the top nibble (R84) and then on `kk` or `n` (R85). -/

namespace Sys2Proof

/-! ### `STRICT_DECODE` -/

/-- Without `STRICT_DECODE` every term is well formed (R86). -/
theorem wellFormed_false (i : Instr) : WellFormed false i = true := by cases i <;> rfl

/-- A word that a row selects under its strict mask builds a term that R87 accepts. -/
def Row.ChecksIgnoredBits (row : Row) : Prop :=
  ∀ w, w &&& row.strictMask = row.code → WellFormed true (row.build (Fields.of w)) = true

/-- Group 0: the strict mask tests the whole word, so `x` is that of the code (R87). -/
theorem x_beq_of_masked {w c : Word} (h : w &&& 0xFFFF#16 = c) (hx : (Fields.of c).x = 0) :
    ((Fields.of w).x == 0) = true := by
  rw [(and_FFFF_eq w c).1 h, hx, beq_self_eq_true]

/-- Groups 5 and 9: the strict mask tests `n`, so `n` is that of the code (R87). -/
theorem n_beq_of_masked {w c : Word} (h : w &&& 0xF00F#16 = c) (hn : (Fields.of c).n = 0) :
    ((Fields.of w).n == 0) = true := by
  obtain ⟨-, hn', -⟩ := (and_F00F_eq w c).1 h
  rw [hn', hn, beq_self_eq_true]

theorem rowsFlow_checkIgnoredBits : ∀ row ∈ rowsFlow, row.ChecksIgnoredBits := by
  simp only [rowsFlow, List.forall_mem_cons, List.not_mem_nil, false_imp_iff, implies_true, and_true]
  exact ⟨fun _ h => x_beq_of_masked h rfl, fun _ h => x_beq_of_masked h rfl, fun _ _ => rfl, fun _ _ => rfl,
    fun _ _ => rfl, fun _ _ => rfl, fun _ h => n_beq_of_masked h rfl, fun _ _ => rfl, fun _ _ => rfl⟩

theorem rowsArith_checkIgnoredBits : ∀ row ∈ rowsArith, row.ChecksIgnoredBits := by
  simp only [rowsArith, List.forall_mem_cons, List.not_mem_nil, false_imp_iff, implies_true, and_true]
  refine ⟨?_, ?_, ?_, ?_, ?_, ?_, ?_, ?_, ?_⟩ <;> exact fun _ _ => rfl

theorem rowsMiddle_checkIgnoredBits : ∀ row ∈ rowsMiddle, row.ChecksIgnoredBits := by
  simp only [rowsMiddle, List.forall_mem_cons, List.not_mem_nil, false_imp_iff, implies_true, and_true]
  exact ⟨fun _ h => n_beq_of_masked h rfl, fun _ _ => rfl, fun _ _ => rfl, fun _ _ => rfl, fun _ _ => rfl⟩

theorem rowsKeyTimerMemory_checkIgnoredBits : ∀ row ∈ rowsKeyTimerMemory, row.ChecksIgnoredBits := by
  simp only [rowsKeyTimerMemory, List.forall_mem_cons, List.not_mem_nil, false_imp_iff, implies_true, and_true]
  refine ⟨?_, ?_, ?_, ?_, ?_, ?_, ?_, ?_, ?_, ?_, ?_⟩ <;> exact fun _ _ => rfl

/-- Every row of the table of R90 makes the check of R87 where its instruction has unconsulted bits. -/
theorem opcodeTable_checksIgnoredBits : ∀ row ∈ opcodeTable, row.ChecksIgnoredBits := by
  simp only [opcodeTable, List.forall_mem_append]
  exact ⟨⟨⟨rowsFlow_checkIgnoredBits, rowsArith_checkIgnoredBits⟩, rowsMiddle_checkIgnoredBits⟩,
    rowsKeyTimerMemory_checkIgnoredBits⟩

/-- The decoder gives well-formed terms only (R86, R87). -/
theorem wellFormed_of_decodeWord {strict : Bool} {w : Word} {i : Instr} (h : decodeWord strict w = some i) :
    WellFormed strict i = true := by
  cases strict with
  | false => exact wellFormed_false i
  | true =>
    obtain ⟨row, hfind, rfl⟩ := Option.map_eq_some_iff.1 h
    have hsel : row.selects true w = true := List.find?_some (p := fun r : Row => r.selects true w) hfind
    exact opcodeTable_checksIgnoredBits row (List.mem_of_find?_eq_some hfind) w (beq_iff_eq.1 hsel)

/-- The decoder and the encoder are inverse between the words that decode and the well-formed terms. -/
theorem decodeWord_eq_some_iff {strict : Bool} {w : Word} {i : Instr} :
    decodeWord strict w = some i ↔ encode i = w ∧ WellFormed strict i = true :=
  ⟨fun h => ⟨encode_of_decodeWord h, wellFormed_of_decodeWord h⟩, fun ⟨hw, hi⟩ => hw ▸ decodeWord_encode hi⟩

/-! ### The two levels of the dispatch -/

/-- Among elements of which no two meet a predicate, at most one is kept by it. -/
theorem length_filter_le_one {α : Type} {p : α → Bool} {l : List α}
    (h : l.Pairwise fun a b => ¬ (p a = true ∧ p b = true)) : (l.filter p).length ≤ 1 := by
  have hkept : (l.filter p).Pairwise fun _ _ => False :=
    List.pairwise_filter.2 (h.imp fun hab ha hb => hab ⟨ha, hb⟩)
  match l.filter p, hkept with
  | [], _ => exact Nat.zero_le 1
  | [_], _ => exact Nat.le_refl 1
  | _ :: b :: _, hkept => exact (List.rel_of_pairwise_cons hkept List.mem_cons_self).elim

/-- A search of a list, as the chain of tests that R91 writes. -/
theorem find?_cons_map {α β : Type} (p : α → Bool) (f : α → β) (a : α) (as : List α) :
    ((a :: as).find? p).map f = if p a = true then some (f a) else (as.find? p).map f := by
  cases h : p a <;> simp [List.find?, h]

/-- Such a chain of tests finds nothing when every test fails. -/
theorem ite_some_eq_none_iff {α : Type} {c : Prop} [Decidable c] {a : α} {o : Option α} :
    (if c then some a else o) = none ↔ ¬ c ∧ o = none := by
  by_cases h : c <;> simp [h]

/-- The rows of one group: those whose code has the top nibble `k` (R84). -/
def rowsOfOp (k : Nat) : List Row := opcodeTable.filter fun row => (Fields.of row.code).op.toNat == k

theorem mem_rowsOfOp {row : Row} {k : Nat} :
    row ∈ rowsOfOp k ↔ row ∈ opcodeTable ∧ (Fields.of row.code).op.toNat = k := by
  rw [rowsOfOp, List.mem_filter, beq_iff_eq]

/-- Every row tests the whole top nibble. -/
theorem opcodeTable_mask_op : ∀ row ∈ opcodeTable, (Fields.of row.mask).op = 15#4 := by decide

/-- A word has the top nibble of a row that selects it. -/
theorem op_of_selects {row : Row} (hrow : row ∈ opcodeTable) {strict : Bool} {w : Word}
    (h : row.selects strict w = true) : (Fields.of row.code).op = (Fields.of w).op := by
  obtain ⟨hop, -⟩ := (and_mask_eq w row.mask row.code).1 (and_mask_of_selects hrow h)
  rw [← hop, opcodeTable_mask_op row hrow, nibble_and_full]

section levels
variable {w : Word} {k : Nat}

/-- Within the group of its top nibble, a word is searched for by the remaining bits of the masks. -/
theorem decodeWord_of_group (hop : (Fields.of w).op.toNat = k) {p : Row → Bool}
    (h : ∀ row ∈ rowsOfOp k, (Fields.of w).op = (Fields.of row.code).op → (w &&& row.mask = row.code ↔ p row = true)) :
    decodeWord false w = ((rowsOfOp k).find? p).map fun row => row.build (Fields.of w) := by
  rw [decodeWord, rowsOfOp, List.find?_filter]
  refine congrArg _ (List.find?_congr fun row hrow => ?_)
  rw [Bool.eq_iff_iff, decide_eq_true_iff, beq_iff_eq]
  constructor
  · intro hsel
    have hrowop := op_of_selects hrow hsel
    have hk := (congrArg BitVec.toNat hrowop).trans hop
    exact ⟨hk, (h row (mem_rowsOfOp.2 ⟨hrow, hk⟩) hrowop.symm).1 (and_mask_of_selects hrow hsel)⟩
  · rintro ⟨hk, hp⟩
    exact beq_iff_eq.2 ((h row (mem_rowsOfOp.2 ⟨hrow, hk⟩) (BitVec.eq_of_toNat_eq (hop.trans hk.symm))).2 hp)

/-- A group of one row is selected on the top nibble alone (R84). -/
theorem decodeWord_of_op (hop : (Fields.of w).op.toNat = k) {row : Row} (hrow : rowsOfOp k = [row])
    (hmask : row.mask = 0xF000#16) (hcode : (Fields.of row.code).nnn = 0) :
    decodeWord false w = some (row.build (Fields.of w)) := by
  have hp : ∀ r ∈ rowsOfOp k, (Fields.of w).op = (Fields.of r.code).op → (w &&& r.mask = r.code ↔ true = true) := by
    rw [hrow, List.forall_mem_singleton, hmask, and_F000_eq]
    exact fun h => iff_of_true ⟨h, hcode⟩ rfl
  rw [decodeWord_of_group hop hp, hrow, find?_cons_map, if_pos rfl]

/-- Groups 0, E and F are selected on `kk` (R85). -/
theorem decodeWord_of_kk (hop : (Fields.of w).op.toNat = k)
    (h : ∀ row ∈ rowsOfOp k, row.mask = 0xF0FF#16 ∧ (Fields.of row.code).x = 0) :
    decodeWord false w = ((rowsOfOp k).find? fun row => (Fields.of w).kk == (Fields.of row.code).kk).map
      fun row => row.build (Fields.of w) := by
  refine decodeWord_of_group hop fun row hrow hrowop => ?_
  obtain ⟨hmask, hx⟩ := h row hrow
  rw [hmask, and_F0FF_eq, beq_iff_eq]
  exact ⟨fun ⟨_, hkk, _⟩ => hkk, fun hkk => ⟨hrowop, hkk, hx⟩⟩

/-- Group 8 is selected on `n` (R85). -/
theorem decodeWord_of_n (hop : (Fields.of w).op.toNat = k)
    (h : ∀ row ∈ rowsOfOp k, row.mask = 0xF00F#16 ∧ (Fields.of row.code).x = 0 ∧ (Fields.of row.code).y = 0) :
    decodeWord false w = ((rowsOfOp k).find? fun row => (Fields.of w).n.toNat == (Fields.of row.code).n.toNat).map
      fun row => row.build (Fields.of w) := by
  refine decodeWord_of_group hop fun row hrow hrowop => ?_
  obtain ⟨hmask, hxy⟩ := h row hrow
  rw [hmask, and_F00F_eq, beq_iff_eq, BitVec.toNat_inj]
  exact ⟨fun ⟨_, hn, _⟩ => hn, fun hn => ⟨hrowop, hn, hxy⟩⟩

end levels

end Sys2Proof

namespace Sys2Proof.Machine

/-- The search of the table is the dispatch of R91, group by group. -/
theorem decodeWord_eq_select (w : Word) : decodeWord false w = select w := by
  simp only [select]
  split
  case h_1 hop => -- group 0
    rw [decodeWord_of_kk hop (by decide), show rowsOfOp 0x0 = rowsFlow.take 2 from rfl]
    simp only [rowsFlow, List.take, find?_cons_map, beq_iff_eq]
    rfl
  case h_9 hop => -- group 8
    rw [decodeWord_of_n hop (by decide)]
    split
    case h_10 => -- the values of `n` that no row of the group has
      simp only [imp_false] at *
      have hcodes : ∀ row ∈ rowsOfOp 0x8, (Fields.of row.code).n.toNat ∈ [0, 1, 2, 3, 4, 5, 6, 7, 14] := by decide
      rw [Option.map_eq_none_iff, List.find?_eq_none]
      intro row hrow hn
      have hmem := beq_iff_eq.1 hn ▸ hcodes row hrow
      simp only [List.mem_cons, List.not_mem_nil, or_false] at hmem
      omega
    all_goals next hn => rw [hn]; rfl
  case h_15 hop => -- group E
    rw [decodeWord_of_kk hop (by decide), show rowsOfOp 0xE = rowsKeyTimerMemory.take 2 from rfl]
    simp only [rowsKeyTimerMemory, List.take, find?_cons_map, beq_iff_eq]
    rfl
  case h_16 => -- group F
    simp only [imp_false] at *
    have hop : (Fields.of w).op.toNat = 0xF := by omega
    rw [decodeWord_of_kk hop (by decide), show rowsOfOp 0xF = rowsKeyTimerMemory.drop 2 from rfl]
    simp only [rowsKeyTimerMemory, List.drop, find?_cons_map, beq_iff_eq]
    rfl
  all_goals next hop => exact (decodeWord_of_op hop rfl rfl rfl).trans rfl

end Sys2Proof.Machine

namespace Sys2Proof.Proofs
open Sys2Proof Sys2Proof.Machine

/-- Settles O1: the words are searched for in the table. -/
theorem manualWordsDecode : Obligations.ManualWordsDecode := by
  unfold Obligations.ManualWordsDecode; decide

/-- Settles O2: the row of the instruction is the only one that its encoding selects. -/
theorem decodeOfEncodeIsIdentity : Obligations.DecodeOfEncodeIsIdentity := fun _ _ => decodeWord_encode

/-- Settles O3: row by row, the encoding of a decoded word is that word, and the strict masks make the checks of R87. -/
theorem encodeOfDecodeIsIdentity : Obligations.EncodeOfDecodeIsIdentity := fun _ _ _ => decodeWord_eq_some_iff.1

/-- Settles O4: two rows differ in a bit that both test. -/
theorem noWordSelectsTwoRows : Obligations.NoWordSelectsTwoRows := fun strict w =>
  length_filter_le_one (opcodeTable_selects_unique strict w)

/-- Settles O5: first the group of the top nibble, then the row within the group. -/
theorem tableDecodeIsDispatchProcedure : Obligations.TableDecodeIsDispatchProcedure := decodeWord_eq_select

/-- Settles O6: under either setting the words that decode to `i` are its encoding, if `i` is well formed. -/
theorem strictDecodeOnlyRefusesIgnoredBits : Obligations.StrictDecodeOnlyRefusesIgnoredBits := by
  intro w i
  rw [decodeWord_eq_some_iff, decodeWord_eq_some_iff, wellFormed_false, and_iff_left rfl]

/-- Settles O7, read off the dispatch procedure: only the four shared groups leave words over. -/
theorem illegalOpcodesAreThoseOfTheTable : Obligations.IllegalOpcodesAreThoseOfTheTable := by
  intro w
  rw [decodeWord_eq_select, select]
  simp only [← BitVec.toNat_inj (n := 4), List.mem_cons]
  split
  case h_1 hop | h_15 hop => -- groups 0 and E
    simp [hop, ite_some_eq_none_iff]
  case h_9 hop => -- group 8
    simp only [hop]
    split
    case h_10 =>
      simp only [imp_false] at *
      refine iff_of_true trivial (.inr (.inl ⟨rfl, ?_⟩))
      simp only [List.not_mem_nil, or_false, BitVec.ofNat_eq_ofNat, BitVec.toNat_ofNat]
      omega
    all_goals next hn => simp [hn]
  case h_16 => -- group F
    simp only [imp_false] at *
    have hop : (Fields.of w).op.toNat = 0xF := by omega
    simp [hop, ite_some_eq_none_iff]
  all_goals next hop => simp [hop]

end Sys2Proof.Proofs
end

section
/-! PROOFS. The jumps, a jump to itself, and a return right after a call (R110 to R113, R119). -/

namespace Sys2Proof.Machine

/-- Writing PC with the value it has changes nothing. -/
theorem jump_self (s : State) : s.jump s.pc = s := rfl

/-- An instruction that does not fault and writes PC alone takes it to the entry of R33. -/
theorem exec_writes_pc {i : Instr} {s : State} (hf : ownFault i s = none) (hw : ∀ p, writes i s p → p = .pc) :
    ∃ t, exec i s = .next t ∧ t.pc.toNat = nextPC i s ∧ Keeps (Among [.pc]) s t :=
  ⟨_, exec_effect hf, effect_pc i s, (effect_keeps i s).mono fun p hp => List.mem_singleton.2 (hw p hp)⟩

/-- A part that ends as it began may be left out of what a change names. -/
theorem Keeps.of_restored {W W' : Part → Prop} {s t : State} {q : Part} (h : Keeps W s t) (hq : q.same s t)
    (hW : ∀ p, W p → p = q ∨ W' p) : Keeps W' s t := by
  intro p hp
  by_cases hpq : p = q
  · exact hpq ▸ hq
  · exact h p fun hWp => (hW p hWp).elim hpq hp

end Sys2Proof.Machine

namespace Sys2Proof.Proofs
open Sys2Proof Sys2Proof.Machine

/-- Settles O28, from what a call leaves (O27) and what a return does there (O26): the address popped is the one pushed,
and SP goes up and down again. -/
theorem callThenReturnContinuesAfterTheCall : Obligations.CallThenReturnContinuesAfterTheCall := by
  intro nnn x s hroom
  obtain ⟨k, hk⟩ : ∃ k : Fin 16, s.sp.val = k.val := ⟨⟨s.sp.val, hroom⟩, rfl⟩
  obtain ⟨t, hcall, hspCall, hpushed, -, hframeCall⟩ := callPushesItsOwnAddress nnn s k hk
  obtain ⟨u, hret, hspRet, hpc, hframeRet⟩ := returnPopsAndAdvances x t k hspCall
  have hsp : u.sp = s.sp := Fin.ext (hspRet.trans hk.symm)
  have hframe : Keeps (Among [.pc, .sp, .slot k]) s u :=
    hframeCall.trans (hframeRet.mono fun _ => List.mem_append_left [Part.slot k])
  refine ⟨t, u, hcall, hret, hpushed ▸ hpc, hframe.of_restored (q := .sp) hsp fun p hp => ?_⟩
  obtain rfl | rfl | rfl : p = .pc ∨ p = .sp ∨ p = .slot k := by simpa [Among] using hp
  · exact .inr (.inl rfl)
  · exact .inl rfl
  · exact .inr (.inr ⟨k, hk.symm, rfl⟩)

/-- Settles O22: the step is the jump, and its target is PC. -/
theorem endOfRunIsAFixedPoint : Obligations.EndOfRunIsAFixedPoint := by
  rintro s ⟨nnn, hcur, htarget⟩
  calc step s = exec (.jp nnn) s := step_of_current hcur
    _ = .next (s.jump (zext16 nnn)) := exec_effect rfl
    _ = .next s := by rw [htarget, jump_self]

/-- Settles O29: neither jump can fault, and PC is the one entry that both write. -/
theorem jumpsSetPc : Obligations.JumpsSetPc := fun nnn s =>
  ⟨exec_writes_pc (i := .jp nnn) (s := s) rfl (by simp [writes]),
    exec_writes_pc (i := .jpV0 nnn) (s := s) rfl (by simp [writes])⟩

end Sys2Proof.Proofs
end

section
/-! PROOFS. The loads and the bitwise operations (R130 to R135): one register written, with a value that memory has no
part in. -/

namespace Sys2Proof.Machine

/-- A register write followed by the auto-advance changes that register and PC alone. -/
theorem setReg_advance (x : Reg) (b : Byte) (s : State) :
    (s.setReg x b).advance.reg x = b ∧ (s.setReg x b).advance.pc.toNat = (s.pc.toNat + 2) % 65536 ∧
      Keeps (Among [.pc, .reg x]) s (s.setReg x b).advance :=
  ⟨by simp, advance_pc_toNat _, ((Keeps.refl _ s).setReg (by simp [Among]) _).advance (by simp [Among])⟩

/-- The register write and the auto-advance neither read nor write memory. -/
theorem writeVx_setMem (x : Reg) (b : Byte) (s : State) (m : Memory) :
    writeVx x b (s.setMem m) = .next ((s.setReg x b).advance.setMem m) := rfl

end Sys2Proof.Machine

namespace Sys2Proof.Proofs
open Sys2Proof Sys2Proof.Machine

/-- Settles O32: each of the five is `writeVx` of a value computed from the registers alone, so the value is the same
with any other memory. -/
theorem loadAndLogicWriteOnlyVx : Obligations.LoadAndLogicWriteOnlyVx := by
  intro x y kk i r hi s m
  obtain ⟨hexec, hmem⟩ : (∀ u, exec i u = writeVx x (r u) u) ∧ r (s.setMem m) = r s := by
    rcases hi with ⟨rfl, rfl⟩ | ⟨rfl, rfl⟩ | ⟨rfl, rfl⟩ | ⟨rfl, rfl⟩ | ⟨rfl, rfl⟩ <;> exact ⟨fun _ => rfl, rfl⟩
  obtain ⟨hres, hpc, hframe⟩ := setReg_advance x (r s) s
  exact ⟨_, hexec s, hres, hpc, hframe, by rw [hexec, hmem, writeVx_setMem]⟩

end Sys2Proof.Proofs
end

section
/-! PROOFS. ADD of a byte, and the flag-producing instructions into VF (R140, R141). -/

namespace Sys2Proof.Machine

/-- With VF as destination the flag is overwritten by the result (R140, D11). -/
theorem setFlagThen_VF (f : Bool) (b : Byte) (s : State) : s.setFlagThen f VF b = s.setReg VF b := by
  simp [State.setReg]

end Sys2Proof.Machine

namespace Sys2Proof.Proofs
open Sys2Proof Sys2Proof.Machine

/-- Settles O33: the effect is one register write, of the sum. -/
theorem addByteWrapsWithoutFlag : Obligations.AddByteWrapsWithoutFlag := by
  intro x kk s
  obtain ⟨hres, hpc, hframe⟩ := setReg_advance x (addByte (s.reg x) kk) s
  exact ⟨_, exec_effect rfl, hres ▸ addByte_toNat _ _, hpc, hframe⟩

/-- Settles O37: each of the five writes a flag to VF and then its result over it, computed from the operands before
either write. -/
theorem flagInstructionsIntoVFKeepTheResult : Obligations.FlagInstructionsIntoVFKeepTheResult := by
  intro y m s i r hi
  obtain ⟨f, b, heffect, hf, hvalue⟩ : ∃ f b, s.effect i = (s.setFlagThen f VF b).advance ∧ ownFault i s = none ∧
      (b.toNat : Int) = r % 256 := by
    rcases hi with ⟨rfl, rfl⟩ | ⟨rfl, rfl⟩ | ⟨rfl, rfl⟩ | ⟨rfl, rfl⟩ | ⟨rfl, rfl⟩
    · exact ⟨_, _, rfl, rfl, congrArg Nat.cast (addByte_toNat _ _)⟩
    · exact ⟨_, _, rfl, rfl, subByte_toNat _ _⟩
    · exact ⟨_, _, rfl, rfl, subByte_toNat _ _⟩
    · have hlt := (s.reg VF).isLt
      exact ⟨_, _, rfl, rfl, by rw [shiftRight_toNat]; omega⟩
    · exact ⟨_, _, rfl, rfl, congrArg Nat.cast (shiftLeft_toNat _)⟩
  rw [setFlagThen_VF] at heffect
  obtain ⟨hres, hpc, hframe⟩ := setReg_advance VF b s
  exact ⟨_, heffect ▸ exec_effect hf, by rw [hres, hvalue], hpc, hframe⟩

end Sys2Proof.Proofs
end

section
/-! PROOFS. LD I, the register store and the register load, and the load of a block just stored (R150, R154 to R156). -/

namespace Sys2Proof.Proofs
open Sys2Proof Sys2Proof.Machine

/-- Settles O38: LD I cannot fault, and its effect is the two updates of I and PC. -/
theorem setAddressRegister : Obligations.SetAddressRegister := by
  intro nnn s
  exact ⟨_, exec_effect (i := .ldI nnn) rfl, zext16_toNat nnn, effect_pc (.ldI nnn) s,
    (effect_keeps (.ldI nnn) s).mono fun p hp => by simpa [writes, Among] using hp⟩

/-- Settles O42: the effect of a store whose block exists and is not protected. -/
theorem storeRegisterBlock : Obligations.StoreRegisterBlock := by
  intro x s hwf hb hprot
  have hf : ownFault (.storeRegs x) s = none := storeFault_eq_none.2 ⟨Nat.succ_le_succ hb, hprot⟩
  exact ⟨_, exec_effect hf, fun _ => effect_storeRegs_read hwf hf, effect_mem_wf hwf hf, effect_pc _ s,
    effect_keeps (.storeRegs x) s⟩

/-- Settles O43: the effect of a load whose block exists. -/
theorem loadRegisterBlock : Obligations.LoadRegisterBlock := by
  intro x s hb
  have hf : ownFault (.loadRegs x) s = none := if_neg (not_lt.2 hb)
  exact ⟨_, exec_effect hf, fun _ => effect_loadRegs_reg, effect_pc _ s, effect_keeps (.loadRegs x) s⟩

/-- Settles O44, from what a store leaves (O42) and what a load reads (O43): the store keeps I, so the load reads the
bytes that were stored, and those do not depend on the registers in between. -/
theorem storeThenLoadRestoresRegisters : Obligations.StoreThenLoadRestoresRegisters := by
  intro x s v hwf hb hprot
  obtain ⟨t, hstore, hstored, -, -, hframe⟩ := storeRegisterBlock x s hwf hb hprot
  have hi : t.i = s.i := hframe .i (by simp [InBlock])
  obtain ⟨u, hload, hloaded, -, -⟩ := loadRegisterBlock x { t with v := v } (hi.symm ▸ hb)
  refine ⟨t, u, hstore, hload, fun r hr => ?_⟩
  calc u.reg r = t.mem.read (t.i.toNat + r.val) := hloaded r hr
    _ = t.mem.read (s.i.toNat + r.val) := by rw [hi]
    _ = s.reg r := hstored r hr

end Sys2Proof.Proofs
end

section
/-! PROOFS. The display (R160 to R162): the blank display, one draw as the XOR of the cells its sprite covers, and a
second equal draw. -/

namespace Sys2Proof.Machine

@[simp] theorem bytesAtI_length (s : State) (n : Nat) : (s.bytesAtI n).length = n := by
  simp [State.bytesAtI]

/-- The cells that a draw flips are those that a set bit of its sprite covers (R161, R162). -/
theorem mem_spriteCells_bytesAtI {s : State} {x y : Reg} {n : Nibble} {r : Fin 32} {c : Fin 64} :
    (r, c) ∈ spriteCells (s.reg x).toNat (s.reg y).toNat 0 (s.bytesAtI n.toNat) ↔ SpriteCovers s x y n r c := by
  have cell_eq : ∀ row col, (r, c) = (rowAt (s.reg y).toNat (0 + row), colAt (s.reg x).toNat col) ↔
      ((s.reg y).toNat + row) % 32 = r.val ∧ ((s.reg x).toNat + col) % 64 = c.val := by
    intro row col
    simp only [Prod.mk.injEq, Fin.ext_iff, rowAt, colAt, Fin.ofNat, Nat.zero_add, eq_comm]
  rw [mem_spriteCells, SpriteCovers]
  constructor
  · rintro ⟨row, hrow, col, hcol, hbit, hcell⟩
    obtain ⟨hr, hc⟩ := (cell_eq row col).1 hcell
    exact ⟨row, by simpa using hrow, col, hcol, hr, hc, by simpa [State.bytesAtI, State.base] using hbit⟩
  · rintro ⟨row, hrow, col, hcol, hr, hc, hbit⟩
    exact ⟨row, by simpa using hrow, col, hcol, by simpa [State.bytesAtI, State.base] using hbit,
      (cell_eq row col).2 ⟨hr, hc⟩⟩

section drawSprite
variable {vx vy : Nat} {rows : List Byte} (hrows : rows.length ≤ 32)
include hrows

/-- A sprite that is no taller than the display flips each of its cells once and leaves every other alone (R161). -/
theorem pixel_drawSprite (d : Display) (r : Fin 32) (c : Fin 64) : pixel (drawSprite vx vy rows d).disp r c =
    if (r, c) ∈ spriteCells vx vy 0 rows then !pixel d r c else pixel d r c := by
  rw [drawSprite_eq]
  exact Canvas.pixel_plotAll _ _ (nodup_spriteCells _ _ _ _ (by omega)) r c

/-- The collision flag of a draw: some pixel goes from set to unset (R161). -/
theorem drawSprite_hit_iff (d : Display) : (drawSprite vx vy rows d).hit = true ↔
    ∃ r c, pixel d r c = true ∧ pixel (drawSprite vx vy rows d).disp r c = false := by
  have unset_iff : ∀ r c, pixel d r c = true ∧ pixel (drawSprite vx vy rows d).disp r c = false ↔
      (r, c) ∈ spriteCells vx vy 0 rows ∧ pixel d r c = true := by
    intro r c
    rw [pixel_drawSprite hrows]
    by_cases hm : (r, c) ∈ spriteCells vx vy 0 rows <;> simp [hm]
  simp only [unset_iff]
  rw [drawSprite_eq, Canvas.hit_plotAll _ _ (nodup_spriteCells _ _ _ _ (by omega)), Bool.false_or, List.any_eq_true,
    Prod.exists]

end drawSprite

/-- What a draw covers depends on its coordinates, I and memory. -/
theorem spriteCovers_congr {s t : State} {x y : Reg} {n : Nibble} (hx : t.reg x = s.reg x) (hy : t.reg y = s.reg y)
    (hi : t.i = s.i) (hmem : ∀ a, t.mem.read a = s.mem.read a) (r : Fin 32) (c : Fin 64) :
    SpriteCovers t x y n r c ↔ SpriteCovers s x y n r c := by
  simp only [SpriteCovers, hx, hy, hi, hmem]

end Sys2Proof.Machine

namespace Sys2Proof.Proofs
open Sys2Proof Sys2Proof.Machine

/-- Settles O45: CLS cannot fault, and its effect is the blank display and the auto-advance. -/
theorem clearDisplayBlanksEveryCell : Obligations.ClearDisplayBlanksEveryCell := fun x s =>
  ⟨_, exec_effect rfl, pixel_blankDisplay, effect_pc (.cls x) s, effect_keeps (.cls x) s⟩

/-- Settles O46: the sprite has at most 15 rows, so its draw flips every covered cell once, and VF receives the
canvas's collision flag. -/
theorem drawXorsTheWrappedSprite : Obligations.DrawXorsTheWrappedSprite := by
  intro x y n s hfit
  have hf : ownFault (.drw x y n) s = none := if_neg (by omega)
  have hrows : (s.bytesAtI n.toNat).length ≤ 32 := by rw [bytesAtI_length]; omega
  have hflag : (s.effect (.drw x y n)).reg VF = flagByte
      (drawSprite (s.reg x).toNat (s.reg y).toNat (s.bytesAtI n.toNat) s.disp).hit := by simp [State.effect]
  refine ⟨_, exec_effect hf, fun r c hcov => ?_, fun r c hcov => ?_, fun hset => ?_, fun hset => ?_,
    effect_pc _ s, effect_keeps (.drw x y n) s⟩
  · exact (pixel_drawSprite hrows _ r c).trans (if_pos (mem_spriteCells_bytesAtI.2 hcov))
  · exact (pixel_drawSprite hrows _ r c).trans (if_neg (mt mem_spriteCells_bytesAtI.1 hcov))
  · rw [hflag, (drawSprite_hit_iff hrows _).2 hset]; rfl
  · rw [hflag, Bool.eq_false_iff.2 (mt (drawSprite_hit_iff hrows _).1 hset)]; rfl

/-- Settles O47, from one draw (O46) used twice: with VF put back the second draw covers the cells of the first, so it
flips each of them back, and it unsets exactly those that the first has set. -/
theorem drawingTwiceRestoresTheDisplay : Obligations.DrawingTwiceRestoresTheDisplay := by
  intro x y n s hfit
  obtain ⟨t, hdraw, hflip, hkeep, -, -, -, hframe⟩ := drawXorsTheWrappedSprite x y n s hfit
  have hi : t.i = s.i := hframe .i (by simp [IsPixel])
  have hreg : ∀ q, (t.setReg VF (s.reg VF)).reg q = s.reg q := by
    intro q
    rw [State.setReg_reg]
    split
    · next hq => rw [hq]
    · next hq => exact hframe (.reg q) (by simp [IsPixel, hq])
  have hcovers : ∀ r c, SpriteCovers (t.setReg VF (s.reg VF)) x y n r c ↔ SpriteCovers s x y n r c :=
    spriteCovers_congr (hreg x) (hreg y) hi fun a => hframe (.byte a) (by simp [IsPixel])
  obtain ⟨u, hdraw', hflip', hkeep', hhit, hmiss, -, -⟩ :=
    drawXorsTheWrappedSprite x y n (t.setReg VF (s.reg VF)) (by rwa [State.setReg_i, hi])
  simp only [hcovers, State.setReg_disp] at hflip' hkeep' hhit hmiss
  have hrestored : ∀ r c, pixel u.disp r c = pixel s.disp r c := by
    intro r c
    by_cases hcov : SpriteCovers s x y n r c
    · rw [hflip' r c hcov, hflip r c hcov, Bool.not_not]
    · rw [hkeep' r c hcov, hkeep r c hcov]
  have unset_iff : ∀ r c, pixel t.disp r c = true ∧ pixel u.disp r c = false ↔
      SpriteCovers s x y n r c ∧ pixel s.disp r c = false := by
    intro r c
    rw [hrestored]
    by_cases hcov : SpriteCovers s x y n r c
    · simp [hcov, hflip r c hcov]
    · simp [hcov, hkeep r c hcov]
  simp only [unset_iff] at hhit hmiss
  refine ⟨t, u, hdraw, hdraw', display_ext hrestored, fun hVF => ?_, hhit⟩
  by_contra hnone
  exact absurd (hVF.symm.trans (hmiss hnone)) (by decide)

end Sys2Proof.Proofs
end

section
/-! PROOFS. What a Step transaction returns (R163, R183, R192, R197). -/

namespace Sys2Proof.Machine

/-- The instructions with a redraw hint are clear display and draw (R163). -/
theorem touchesDisplay_iff (i : Instr) :
    touchesDisplay i = true ↔ (∃ x, i = .cls x) ∨ ∃ x y n, i = .drw x y n := by
  cases i <;> simp [touchesDisplay]

/-- A Step that finds a next state leaves it, ends the time for loading, and replies by its HALT (R197, R214). -/
theorem apply_step_next {p : Session} {t : State} (h : step p.machine = .next t) :
    p.apply .step = ({ machine := t, mayLoad := false },
      if t.halt then .faulted t.err else .completed (redrawHint p.machine t)) := by
  simp only [Session.apply, h]

/-- The redraw hint of a step that completes is a matter of the instruction alone (R163, D26). -/
theorem redrawHint_of_current {s t : State} {i : Instr} (hi : s.current = some i) (ht : t.halt = false) :
    redrawHint s t = touchesDisplay i := by
  simp [redrawHint, hi, ht]

end Sys2Proof.Machine

namespace Sys2Proof.Proofs
open Sys2Proof Sys2Proof.Machine

/-- Settles O58: by HALT before and after the step, and by whether the instruction touches the display. -/
theorem stepReplies : Obligations.StepReplies := by
  intro p
  refine ⟨apply_step_halted, fun t hstep ht => ?_, fun i t hi hstep ht => ?_⟩
  · rw [apply_step_next hstep, if_pos ht]
  · rw [apply_step_next hstep, ht, redrawHint_of_current hi ht, ← touchesDisplay_iff]
    cases touchesDisplay i <;> simp

end Sys2Proof.Proofs
end

section
/-! PROOFS. The keypad and the timers (R170 to R175): the key skips, wait for key, and the timer copies. -/

namespace Sys2Proof.Machine

/-- An instruction that takes its own fault changes HALT and ERR alone (R182, R190). -/
theorem exec_fault_keeps {i : Instr} {s : State} {k : Fault} (hf : ownFault i s = some k) :
    ∃ t, exec i s = .next t ∧ t.halt = true ∧ t.err.kind = k ∧ Keeps (Among [.halt, .err]) s t :=
  ⟨_, exec_fault hf, rfl, rfl, (Keeps.refl _ s).takeFault (by simp [Among]) (by simp [Among]) _ _⟩

/-- The key that wait-for-key stores is the least one that is down (R172, D12). -/
theorem firstKey_eq_some_iff {s : State} {k : Key} :
    s.firstKey = some k ↔ s.keys.get k = true ∧ ∀ j, j < k → s.keys.get j = false := by
  refine ⟨firstKey_eq_some, fun ⟨hk, hleast⟩ => ?_⟩
  cases hfirst : s.firstKey with
  | none => exact absurd hk (by simp [firstKey_eq_none.1 hfirst k])
  | some j =>
    obtain ⟨hj, hleast'⟩ := firstKey_eq_some hfirst
    obtain hlt | rfl | hgt := lt_trichotomy j k
    · exact absurd hj (by simp [hleast j hlt])
    · rfl
    · exact absurd hk (by simp [hleast' k hgt])

/-- A key's number fits a byte. -/
theorem keyByte_toNat (k : Key) : (BitVec.ofNat 8 k.val).toNat = k.val := Nat.mod_eq_of_lt (by omega)

end Sys2Proof.Machine

namespace Sys2Proof.Proofs
open Sys2Proof Sys2Proof.Machine

/-- Settles O48: with a key's number in Vx both are skips, on its flag and on the negation; any other index is the own
fault of both. -/
theorem keySkips : Obligations.KeySkips := by
  intro x s
  refine ⟨fun k hk => ?_, fun h => ⟨exec_fault_keeps (if_pos h), exec_fault_keeps (if_pos h)⟩⟩
  have hindex : ¬ 15 < (s.reg x).toNat := by omega
  have hkey : s.keys.toList.getD (s.reg x).toNat false = s.keys.get k := keyAt_eq s _ k hk
  have hskp := exec_skip (i := .skp x) (taken := s.keys.get k = true) (if_neg hindex) (by simp [writes])
    (by simp only [nextPC, hkey])
  have hsknp := exec_skip (i := .sknp x) (taken := s.keys.get k = false) (if_neg hindex) (by simp [writes])
    (by simp only [nextPC, hkey])
  exact ⟨by simpa only [Bool.not_eq_true] using hskp, by simpa only [Bool.not_eq_false] using hsknp⟩

/-- Settles O49, by whether a first key is found: without one the effect is the identity, with one it writes the key's
number to Vx and advances. -/
theorem waitForKey : Obligations.WaitForKey := by
  intro x s
  constructor
  · intro hup
    rw [exec_effect (i := .ldVxK x) rfl, effect_ldVxK_none x (firstKey_eq_none.2 hup)]
  · intro k hk hleast
    obtain ⟨hres, hpc, hframe⟩ := setReg_advance x (BitVec.ofNat 8 k.val) s
    refine ⟨_, exec_effect rfl, ?_⟩
    rw [effect_ldVxK_some x (firstKey_eq_some_iff.2 ⟨hk, hleast⟩)]
    exact ⟨(congrArg BitVec.toNat hres).trans (keyByte_toNat k), hpc, hframe⟩

/-- Settles O50: none of the three can fault, and each effect is one update and the auto-advance. -/
theorem timerLoads : Obligations.TimerLoads := by
  intro x s
  refine ⟨⟨_, exec_effect rfl, setReg_advance x s.dt s⟩, ⟨_, exec_effect rfl, rfl, advance_pc_toNat _, ?_⟩,
    ⟨_, exec_effect rfl, rfl, advance_pc_toNat _, ?_⟩⟩
  · exact ((Keeps.refl _ s).setDT (by simp [Among]) _).advance (by simp [Among])
  · exact ((Keeps.refl _ s).setST (by simp [Among]) _).advance (by simp [Among])

end Sys2Proof.Proofs
end

section
/-! PROOFS. When a step is refused, when an instruction faults, and the transactions that are one update or none (R182,
R192, R196 to R201, R210). -/

namespace Sys2Proof.Machine

/-- Reset gives the reset state in every part but the parameters and the counter of random bytes (R210). -/
theorem afterReset_keeps_reset (s : State) : Keeps (Among [.cfg, .draws]) State.reset s.afterReset := by
  intro q hq
  cases q with
  | cfg | draws => exact absurd (by simp [Among]) hq
  | _ => rfl

/-- The parameters and the counter of random bytes survive a Reset (log 1, log 2). -/
theorem afterReset_keeps_cfg_draws (s : State) : Keeps (fun q => q ≠ .cfg ∧ q ≠ .draws) s s.afterReset := by
  intro q hq
  cases q with
  | cfg | draws => rfl
  | _ => exact absurd ⟨nofun, nofun⟩ hq

end Sys2Proof.Machine

namespace Sys2Proof.Proofs
open Sys2Proof Sys2Proof.Machine

/-- Settles O10, by the ordered checks of a running block: the fault they give is taken, which is a next state too, and
without one the instruction at PC leaves its effect. -/
theorem stepRefusedExactlyWhenHalted : Obligations.StepRefusedExactlyWhenHalted := by
  refine fun s => ⟨step_halted, fun hrun => ?_⟩
  cases hf : faultOf s with
  | some ko => exact ⟨_, step_of_faultOf hrun hf⟩
  | none =>
    obtain ⟨i, hi⟩ := step_of_faultOf_none hrun hf
    exact ⟨_, hi⟩

/-- Settles O12: `exec` is the taken fault or the effect, and no effect writes HALT or ERR. -/
theorem instructionsFaultExactlyAsTabulated : Obligations.InstructionsFaultExactlyAsTabulated := by
  refine fun i s => ⟨fun k hk => ⟨_, exec_fault hk, rfl, rfl, ?_⟩,
    fun hf => ⟨_, exec_effect hf, effect_halt i s, effect_err i s⟩⟩
  exact (Keeps.refl _ s).takeFault (by simp [Among]) (by simp [Among]) k (encode i)

/-- Settles O53: the transaction's state is `State.afterReset`, compared part by part with the reset state and with the
state before. -/
theorem resetFromAnyState : Obligations.ResetFromAnyState :=
  fun p => ⟨rfl, rfl, afterReset_keeps_reset p.machine, afterReset_keeps_cfg_draws p.machine⟩

/-- Settles O56: SetKeys is one update, of the key flags. -/
theorem setKeysWritesEveryFlag : Obligations.SetKeysWritesEveryFlag :=
  fun p keys => ⟨fun _ => rfl, (Keeps.refl _ p.machine).setKeys (fun _ h => h) keys, rfl⟩

/-- Settles O59, by HALT: it decides whether ReadStatus returns ERR. -/
theorem queriesChangeNothing : Obligations.QueriesChangeNothing :=
  fun p => ⟨rfl, fun h => by rw [Session.apply, h]; rfl, fun h => by rw [Session.apply, h]; rfl⟩

end Sys2Proof.Proofs
end

section
/-! PROOFS. LoadProgram (R212 to R214): it copies an image that fits, rejects any other, and is refused once a running
block has stepped. -/

namespace Sys2Proof.Machine

/-- An image fits when it is neither empty nor oversized (R212, R213). -/
theorem imageFits_iff {image : List Byte} : imageFits image = true ↔ 1 ≤ image.length ∧ image.length ≤ maxImage := by
  simp [imageFits]

/-- While a program may be loaded, an image that fits is copied (R212). -/
theorem apply_loadProgram_fits {p : Session} {image : List Byte} (h : p.mayLoad = true)
    (hfit : imageFits image = true) :
    p.apply (.loadProgram image) = ({ p with machine := p.machine.loadImage image }, .done) := by
  simp [Session.apply, h, hfit]

/-- While a program may be loaded, an image that does not fit is a load error (R213). -/
theorem apply_loadProgram_loadError {p : Session} {image : List Byte} (h : p.mayLoad = true)
    (hfit : imageFits image = false) : p.apply (.loadProgram image) = (p, .loadError) := by
  simp [Session.apply, h, hfit]

/-- Byte k of a loaded image stands at 0x200 + k (R212). -/
theorem read_loadImage {s : State} {image : List Byte} (hwf : s.mem.wf) (hlen : image.length ≤ maxImage) {k : Nat}
    (hk : k < image.length) : (s.loadImage image).mem.read (programBase + k) = image[k] :=
  Memory.read_writeList hwf (by simp only [programBase, memSize, maxImage] at *; omega) hk

/-- Loading an image writes its own block alone (R212). -/
theorem loadImage_keeps (s : State) (image : List Byte) :
    Keeps (InBlock programBase image.length) s (s.loadImage image) :=
  (Keeps.refl _ s).writeList fun _ h => h

end Sys2Proof.Machine

namespace Sys2Proof.Proofs
open Sys2Proof Sys2Proof.Machine

/-- Settles O54: an image of 1 to 3584 bytes fits, so the transaction is one block write from 0x200. -/
theorem loadProgramCopiesTheImage : Obligations.LoadProgramCopiesTheImage := by
  intro p image hload hwf hpos hlen
  rw [apply_loadProgram_fits hload (imageFits_iff.2 ⟨hpos, hlen⟩)]
  exact ⟨rfl, fun _ hk => read_loadImage hwf hlen hk, loadImage_keeps p.machine image, rfl⟩

/-- Settles O55: an image of length 0 or above 3584 does not fit, and a running block's Step finds a next state (O10),
with which loading is over. -/
theorem loadProgramRejections : Obligations.LoadProgramRejections := by
  refine fun p image => ⟨fun hload hlen => apply_loadProgram_loadError hload ?_,
    fun hload => apply_loadProgram_refused hload image, fun hrun => ?_⟩
  · rw [← Bool.not_eq_true, imageFits_iff, maxImage]
    omega
  · obtain ⟨t, hstep⟩ := (stepRefusedExactlyWhenHalted p.machine).2 hrun
    rw [apply_step_next hstep]

end Sys2Proof.Proofs
end
